-- ==== Sys2Proof/Word.lean ====
section
/-! DEFINITION. The 16-bit word of the machine and the readings of it that every rule uses (00_scope.md R8, R9). -/

namespace Sys2Proof

/-- `Word16`: every register and every memory cell holds one (R9). -/
abbrev Word := BitVec 16

/-- `uint(w)`: the natural number of `w`, 0 to 65535 (R9; the raw view of R92). -/
abbrev uint (w : Word) : Nat := w.toNat

/-- `sint(w)`: the two's-complement integer of `w`, -32768 to 32767 (R9). -/
abbrev sint (w : Word) : Int := w.toInt

/-- `w16(i)`: the word whose `uint` is `i mod 65536` (R9). -/
abbrev w16 (i : Int) : Word := BitVec.ofInt 16 i

end Sys2Proof
end

