-- ==== Sys2Proof/Config.lean ====
section
/-! DEFINITION. The fixed values of the machine (00_scope.md R7). The spec decides every point its source leaves open
(92_eei_decisions.md), so no value is free and nothing here is opaque. -/

namespace Sys2Proof.Config

/-- `MEM_WORDS`: addresses 0 to 511 exist (R7, R60). -/
def memWords : Nat := 512

/-- `2 ^ ADDR_FIELD_BITS`: one more than the greatest address magnitude (R7, R90). -/
def magnitudes : Nat := 512

/-- What a cell that memory does not list reads as. The image is a parameter of the run (R71); the spec's own examples
fill a cell the program text does not name with `0x0000` (D13).
DESIGN CHOICE, unsafe for a claim about unlisted cells: log 2. -/
def unlistedWord : Word := 0x0000#16

/-- The entry point, the PC at reset (R241, R43). -/
def entryPoint : Word := 0x0000#16

end Sys2Proof.Config
end

