-- ==== Sys2Proof/Syntax.lean ====
section
/-! DEFINITION. The instructions, one constructor for each row of opcode_table.json (30_encoding.md R96). Every instruction
has the one operand form: a mode and a sign-magnitude address field (R90, R101). -/

namespace Sys2Proof

/-- The sign bit of the address field: 0 is plus, 1 is minus (R90). -/
inductive Sign where
  | plus
  | minus
deriving DecidableEq, Repr

/-- The four addressing modes (R99). -/
inductive Mode where
  /-- DOT `.`: immediate (R127). -/
  | dotMode
  /-- AT `@`: direct (R128). -/
  | atMode
  /-- STAR `*`: indirect (R129). -/
  | starMode
  /-- PLUS `+`: indexed by the accumulator (R130). -/
  | plusMode
deriving DecidableEq, Repr

/-- The mode, sign and magnitude fields of an instruction; the magnitude of a well-formed one is at most 511. -/
structure Operand where
  sign : Sign
  mode : Mode
  mag  : Nat
deriving DecidableEq, Repr

/-- The fifteen instructions, in the order of their codes (R96). -/
inductive Instr where
  | null  (o : Operand)
  | stop  (o : Operand)
  | load  (o : Operand)
  | store (o : Operand)
  | jump  (o : Operand)
  | jneg  (o : Operand)
  | jzero (o : Operand)
  | add   (o : Operand)
  | sub   (o : Operand)
  | and   (o : Operand)
  | or    (o : Operand)
  | not   (o : Operand)
  | xor   (o : Operand)
  | shl   (o : Operand)
  | shr   (o : Operand)
deriving DecidableEq, Repr

/-- The operand fields of an instruction. -/
def Instr.operand : Instr → Operand
  | .null o  => o
  | .stop o  => o
  | .load o  => o
  | .store o => o
  | .jump o  => o
  | .jneg o  => o
  | .jzero o => o
  | .add o   => o
  | .sub o   => o
  | .and o   => o
  | .or o    => o
  | .not o   => o
  | .xor o   => o
  | .shl o   => o
  | .shr o   => o

end Sys2Proof
end

