-- ==== Sys2Proof/WellFormed.lean ====
section
/-! DEFINITION. Which instructions the encoding can express: the magnitude fits its nine bits (30_encoding.md R90, R107). Every
opcode takes every mode and either sign (R100, R101), so this is the only check. -/

namespace Sys2Proof

/-- "`|v|` must be at most 511" (R107). -/
def Operand.wellFormed (o : Operand) : Bool := decide (o.mag < Config.magnitudes)

def Instr.wellFormed (i : Instr) : Bool := i.operand.wellFormed

end Sys2Proof
end

