-- ==== Sys2Proof/Decode.lean ====
section
/-! DEFINITION. Field extraction, the decoder and the encoder (30_encoding.md R90 to R98). -/

namespace Sys2Proof

/-- `signed_address`: sign-magnitude, an integer -511 to 511 (R94). -/
def Operand.signedAddress (o : Operand) : Int :=
  match o.sign with
  | .plus  => (o.mag : Int)
  | .minus => -(o.mag : Int)

/-- `sign(w) = w[15]` (R93). -/
def signField (w : Word) : Sign := if w.getLsbD 15 then .minus else .plus

/-- `opcode(w) = w[14:11]` (R93). -/
def opcodeField (w : Word) : Nat := (w.extractLsb 14 11).toNat

/-- The mode a two-bit code names; all four codes are assigned, so the last line is code 3 (R99, R100). -/
def modeOfCode (code : Nat) : Mode :=
  match code with
  | 0 => .dotMode
  | 1 => .atMode
  | 2 => .starMode
  | _ => .plusMode

/-- `mode(w) = w[10:9]` (R93). -/
def modeField (w : Word) : Mode := modeOfCode (w.extractLsb 10 9).toNat

/-- `mag(w) = w[8:0]` (R93). -/
def magField (w : Word) : Nat := (w.extractLsb 8 0).toNat

/-- The operand fields of a word; the split never fails (R95). -/
def operandField (w : Word) : Operand :=
  { sign := signField w, mode := modeField w, mag := magField w }

/-- The instruction a four-bit code selects; code 15 names none (R96, R97). -/
def instrOfOpcode (code : Nat) (o : Operand) : Option Instr :=
  match code with
  | 0  => some (.null o)
  | 1  => some (.stop o)
  | 2  => some (.load o)
  | 3  => some (.store o)
  | 4  => some (.jump o)
  | 5  => some (.jneg o)
  | 6  => some (.jzero o)
  | 7  => some (.add o)
  | 8  => some (.sub o)
  | 9  => some (.and o)
  | 10 => some (.or o)
  | 11 => some (.not o)
  | 12 => some (.xor o)
  | 13 => some (.shl o)
  | 14 => some (.shr o)
  | _  => none

/-- Why a word is no instruction. -/
inductive DecodeRefusal where
  /-- The opcode field is 15 (R97). -/
  | illegalOpcode
deriving DecidableEq, Repr

/-- The decoder, total on every word (R93, R96, R97). -/
def decode (w : Word) : Except DecodeRefusal Instr :=
  match instrOfOpcode (opcodeField w) (operandField w) with
  | some i => .ok i
  | none   => .error .illegalOpcode

/-! The encoder, from the same tables. -/

/-- R90: 0 is plus, 1 is minus. -/
def Sign.code : Sign → Nat
  | .plus  => 0
  | .minus => 1

/-- R99. -/
def Mode.code : Mode → Nat
  | .dotMode  => 0
  | .atMode   => 1
  | .starMode => 2
  | .plusMode => 3

/-- R96. -/
def Instr.opcode : Instr → Nat
  | .null _  => 0
  | .stop _  => 1
  | .load _  => 2
  | .store _ => 3
  | .jump _  => 4
  | .jneg _  => 5
  | .jzero _ => 6
  | .add _   => 7
  | .sub _   => 8
  | .and _   => 9
  | .or _    => 10
  | .not _   => 11
  | .xor _   => 12
  | .shl _   => 13
  | .shr _   => 14

/-- `encode(s, o, m, a)` of R95. -/
def encodeFields (s o m a : Nat) : Word := w16 (s * 32768 + o * 2048 + m * 512 + a)

/-- The word of an instruction (R95). -/
def encode (i : Instr) : Word :=
  encodeFields i.operand.sign.code i.opcode i.operand.mode.code i.operand.mag

/-- The word that `nbits` table bits `w` stand for, the bits above `nbits` being 0. -/
def tableWord (nbits w : Nat) : Word := BitVec.ofNat 16 (w % 2 ^ nbits)

/-- The instruction the decoder reads from `nbits` bits `w` as opcode_table.json numbers them. Every instruction is one
16-bit word (R91), so more than 16 bits are no instruction. -/
def decodeTableWord (nbits w : Nat) : Option Instr :=
  if nbits ≤ 16 then
    match decode (tableWord nbits w) with
    | .ok i    => some i
    | .error _ => none
  else none

end Sys2Proof
end

