-- ==== Sys2Proof/Machine/State.lean ====
section
/-! DEFINITION. The state of the machine (10_state.md), of its host (60_exceptions.md R220, R221) and of the pause between
them (R42, R226); the reasons a step can stop; the state right after reset (R43). -/

namespace Sys2Proof.Machine

/-- `RUN` (R39). HALTED and FAULTED are terminal. -/
inductive RunState where
  | running
  | halted
  | faulted
deriving DecidableEq, Repr

/-- `HALT_REASON` (R39). -/
inductive HaltReason where
  | none
  | stop
  | quit
deriving DecidableEq, Repr

/-- `FAULT_CAUSE`: NONE and the four causes of R200. -/
inductive FaultCause where
  | none
  | fetchOob
  | illegalOpcode
  | operandOob
  | storeOob
deriving DecidableEq, Repr

/-- `DBG`, the host's state variable (R222). -/
inductive DbgState where
  | disabled
  | enabled
  | waitingForBreakpoint
deriving DecidableEq, Repr

/-- The commands of R225; a breakpoint is an address 0 to 511 (R232). `rejected` is a command the parser rejects (R228). -/
inductive HostCommand where
  | next
  | nextBreakpoint
  | addBreakpoint (a : Fin 512)
  | deleteBreakpoint (a : Fin 512)
  | listBreakpoints
  | mem (lo hi : Fin 512)
  | finish
  | quit
  | rejected
deriving DecidableEq, Repr

/-- `M` (R40), as the cells that hold something else than an unlisted cell reads as: (address, word), addresses strictly
rising (`Memory.wf`). The cells are whole words because the memory has no bytes (R65): log 1. -/
abbrev Memory := List (Nat × Word)

/-- `BP`, a set of addresses: strictly rising (R220, R232). -/
abbrev Breakpoints := List (Fin 512)

/-- Everything the spec gives the machine; INVENTORY.md lists each field with its rule. -/
structure State where
  /-- AC (R31). -/
  ac : Word
  /-- PC (R33). -/
  pc : Word
  /-- IR, the word most recently fetched (R35). -/
  ir : Word
  /-- OP, the resolved operand (R36). -/
  op : Word
  /-- RUN (R39). -/
  run : RunState
  /-- HALT_REASON (R39). -/
  haltReason : HaltReason
  /-- FAULT_CAUSE (R39). -/
  faultCause : FaultCause
  /-- FAULT_ADDR (R39). -/
  faultAddr : Word
  /-- M (R40). -/
  mem : Memory
  /-- The pause state: the core is held at its pause point (R42, R226). -/
  held : Bool
  /-- DBG (R220). -/
  dbg : DbgState
  /-- BP (R220). -/
  bp : Breakpoints
  /-- The host's commands to come, the next one first (R225); read only while the core is held: log 3. -/
  commands : List HostCommand
deriving DecidableEq, Repr

/-- Why `step` answers no next state. The four faults of R200 are not here: raising one leads to a next state whose
`run` is `faulted` (R12, R210). -/
inductive Fault where
  /-- Raised by `step` when RUN = HALTED: "No step follows it" (R212, R120). Safe. -/
  | coreHalted
  /-- Raised by `step` when RUN = FAULTED: "the core never steps again" (R209, R120). Safe. -/
  | coreFaulted
  /-- Raised by `step` when the core is held and the host gives no more commands: stuck, "a blocked prompt waits
  indefinitely" (R231, U5). Safe: log 3. -/
  | holdUnanswered
  /-- Raised by the dispatch when IR holds no instruction. Fetch never latches such a word (R122), so no state with the
  model's invariant meets it. Safe: log 8. -/
  | noInstruction
deriving DecidableEq, Repr

/-- Why an instruction has no meaning. -/
inductive Refusal where
  /-- An arm of `exec` that is not modelled. No arm answers so in this model. Safe. -/
  | notModelled (mnemonic : String)
deriving DecidableEq, Repr

/-- What a step or a meaning answers. -/
abbrev Result := Host.Outcome State Fault Refusal

/-- The machine right after reset (R43, R242) with the image that lists nothing (log 2), the interactive flag false
(R221, log 4) and no command to come (log 3). `State.construct` takes these three as parameters. -/
def State.reset : State where
  ac := 0x0000#16
  pc := Config.entryPoint
  ir := 0x0000#16
  op := 0x0000#16
  run := .running
  haltReason := .none
  faultCause := .none
  faultAddr := 0x0000#16
  mem := []
  held := false
  dbg := .disabled
  bp := []
  commands := []

end Sys2Proof.Machine
end

