-- ==== Sys2Proof/Machine/Ops.lean ====
section
/-! DEFINITION. The named operations over memory, registers and status: memory cells (20_memory.md), the memory port
(00_scope.md R11), raising a fault (R12) and halting (R13). There is no return from either (R211, R212). -/

namespace Sys2Proof.Machine

/-! Memory cells. -/

/-- The word of a cell: the listed one, else what an unlisted cell reads as. -/
def Memory.read (m : Memory) (a : Nat) : Word :=
  match m with
  | [] => Config.unlistedWord
  | (b, u) :: rest => if a = b then u else Memory.read rest a

/-- The memory with one cell changed, in canonical form. -/
def Memory.write (m : Memory) (a : Nat) (v : Word) : Memory :=
  match m with
  | [] => if v = Config.unlistedWord then [] else [(a, v)]
  | (b, u) :: rest =>
    if a < b then
      if v = Config.unlistedWord then (b, u) :: rest else (a, v) :: (b, u) :: rest
    else if a = b then
      if v = Config.unlistedWord then rest else (a, v) :: rest
    else (b, u) :: Memory.write rest a v

/-- Every listed address is at least `lo`, exists, and is below the next; no listed word is what an unlisted cell reads as. -/
def Memory.wfFrom (lo : Nat) (m : Memory) : Bool :=
  match m with
  | [] => true
  | (a, v) :: rest =>
    decide (lo ≤ a) && decide (a < Config.memWords) && decide (v ≠ Config.unlistedWord) && Memory.wfFrom (a + 1) rest

/-- The canonical form: equal memories are equal lists. -/
def Memory.wf (m : Memory) : Bool := Memory.wfFrom 0 m

/-- The word at address `a` of the state's memory. -/
def State.wordAt (s : State) (a : Nat) : Word := s.mem.read a

/-! The memory port. -/

/-- "an address `a` is in bounds when `uint(a) < 512`" (R62). -/
def inBounds (a : Word) : Bool := decide (uint a < Config.memWords)

/-- `MemRead(a, 1, _)`: the word, or the out-of-bounds verdict with the address presented (R5, R11). -/
def memRead (a : Word) (s : State) : Except Word Word :=
  if inBounds a then .ok (s.wordAt (uint a)) else .error a

/-- `MemWrite(a, 1, v, _)`: the state with the cell written, or the out-of-bounds verdict, nothing written (R11, R64). -/
def memWrite (a v : Word) (s : State) : Except Word State :=
  if inBounds a then .ok { s with mem := s.mem.write (uint a) v } else .error a

/-! Register and status writes. -/

/-- `AC <- v` (R10). -/
def State.setAc (v : Word) (s : State) : State := { s with ac := v }

/-- `PC <- v` (R10). -/
def State.setPc (v : Word) (s : State) : State := { s with pc := v }

/-- `OP <- v` (R10). -/
def State.setOp (v : Word) (s : State) : State := { s with op := v }

/-- `IR <- w ; PC <- w16(uint(PC) + 1)` (R123). -/
def State.latch (w : Word) (s : State) : State := { s with ir := w, pc := w16 (uint s.pc + 1) }

/-- `raise Fault(cause, addr)`: RUN, FAULT_CAUSE and FAULT_ADDR, and nothing else (R12, R209). -/
def State.raise (cause : FaultCause) (addr : Word) (s : State) : State :=
  { s with run := .faulted, faultCause := cause, faultAddr := addr }

/-- `halt(reason)`: RUN and HALT_REASON, and nothing else (R13). -/
def State.halt (reason : HaltReason) (s : State) : State :=
  { s with run := .halted, haltReason := reason }

/-! The host's part of the state. -/

/-- Enter or leave the hold at the pause point (R226). -/
def State.setHeld (b : Bool) (s : State) : State := { s with held := b }

/-- `DBG <- d` (R225). -/
def State.setDbg (d : DbgState) (s : State) : State := { s with dbg := d }

/-- `BP <- b` (R225). -/
def State.setBp (b : Breakpoints) (s : State) : State := { s with bp := b }

/-- The host's commands to come. -/
def State.setCommands (c : List HostCommand) (s : State) : State := { s with commands := c }

/-- `BP ∪ {a}` (R225). -/
def Breakpoints.insert (a : Fin 512) (l : Breakpoints) : Breakpoints :=
  match l with
  | [] => [a]
  | b :: rest =>
    if a < b then a :: b :: rest
    else if a = b then b :: rest
    else b :: Breakpoints.insert a rest

/-- `BP \ {a}` (R225). -/
def Breakpoints.erase (a : Fin 512) (l : Breakpoints) : Breakpoints :=
  match l with
  | [] => []
  | b :: rest => if a = b then Breakpoints.erase a rest else b :: Breakpoints.erase a rest

/-- `uint(PC) in BP` (R223). -/
def Breakpoints.has (l : Breakpoints) (pc : Word) : Bool :=
  match l with
  | [] => false
  | b :: rest => decide (uint pc = b.val) || Breakpoints.has rest pc

/-- The addresses rise strictly, from `lo` on: the list stands for a set in one form. -/
def Breakpoints.wfFrom (lo : Nat) (l : Breakpoints) : Bool :=
  match l with
  | [] => true
  | b :: rest => decide (lo ≤ b.val) && Breakpoints.wfFrom (b.val + 1) rest

def Breakpoints.wf (l : Breakpoints) : Bool := Breakpoints.wfFrom 0 l

end Sys2Proof.Machine
end

