-- ==== Sys2Proof/Machine/Operands.lean ====
section
/-! DEFINITION. The address resolver: the four addressing modes (40_cycle.md R125 to R131). -/

namespace Sys2Proof.Machine

/-- DOT: `w16(signed_address(IR))`, no memory access (R127). -/
def resolveDot (o : Operand) : Except Word Word := .ok (w16 o.signedAddress)

/-- AT: `MemRead(w16(signed_address(IR)))` (R128). -/
def resolveAt (o : Operand) (s : State) : Except Word Word := memRead (w16 o.signedAddress) s

/-- STAR: the inner read at the unsigned magnitude, then the outer read at the word found there (R129). -/
def resolveStar (o : Operand) (s : State) : Except Word Word :=
  match memRead (w16 o.mag) s with
  | .error a => .error a
  | .ok p    => memRead p s

/-- PLUS: `MemRead(w16(sint(AC) + signed_address(IR)))` (R130). -/
def resolvePlus (o : Operand) (s : State) : Except Word Word :=
  memRead (w16 (sint s.ac + o.signedAddress)) s

/-- The operand's value, or the address of its first out-of-bounds read (R126, R203). -/
def operandValue (o : Operand) (s : State) : Except Word Word :=
  match o.mode with
  | .dotMode  => resolveDot o
  | .atMode   => resolveAt o s
  | .starMode => resolveStar o s
  | .plusMode => resolvePlus o s

/-- Operand resolution, then the opcode's part of the cycle in the state with OP written; an out-of-bounds read ends the
cycle there with `OPERAND_OOB`, OP unwritten (R125, R131, R203). Every opcode's meaning goes through it. -/
def withOperand (o : Operand) (s : State) (rule : State → Result) : Result :=
  match operandValue o s with
  | .ok v    => rule (s.setOp v)
  | .error a => .next (s.raise .operandOob a)

end Sys2Proof.Machine
end

