-- ==== Sys2Proof/Machine/Alu.lean ====
section
/-! DEFINITION. The ALU (44_alu.md): each operation as the spec writes it, on exact integers narrowed by `w16` where the
rule does so, and the eight instructions over them. -/

namespace Sys2Proof.Machine

/-- `w16(sint(AC) + sint(OP))` (R181). -/
def aluAdd (ac op : Word) : Word := w16 (sint ac + sint op)

/-- `w16(sint(AC) - sint(OP))` (R182). -/
def aluSub (ac op : Word) : Word := w16 (sint ac - sint op)

/-- `AC & OP` (R183). -/
def aluAnd (ac op : Word) : Word := ac &&& op

/-- `AC | OP` (R184). -/
def aluOr (ac op : Word) : Word := ac ||| op

/-- `AC ^ OP` (R185). -/
def aluXor (ac op : Word) : Word := ac ^^^ op

/-- `~AC`; the operand is not used (R186). -/
def aluNot (ac _op : Word) : Word := ~~~ac

/-- `if n >= 16 then 0x0000 else w16(uint(AC) * 2^n)` with `n = uint(OP)` (R187; D11: log 10). -/
def aluShl (ac op : Word) : Word :=
  if 16 ≤ uint op then 0x0000#16 else w16 (uint ac * 2 ^ uint op)

/-- `w16(floor(sint(AC) / 2^min(n, 16)))` with `n = uint(OP)` (R188; D10, D11: log 10). -/
def aluShr (ac op : Word) : Word := w16 (Int.fdiv (sint ac) (2 ^ min (uint op) 16))

/-- `AC <- f(AC, OP)` after resolution, and nothing else (R180). OP is resolved from the old AC. -/
def execAlu (f : Word → Word → Word) (o : Operand) (s : State) : Result :=
  withOperand o s fun t => .next (t.setAc (f t.ac t.op))

/-- ADD (R181). -/
def execAdd (o : Operand) (s : State) : Result := execAlu aluAdd o s

/-- SUB (R182). -/
def execSub (o : Operand) (s : State) : Result := execAlu aluSub o s

/-- AND (R183). -/
def execAnd (o : Operand) (s : State) : Result := execAlu aluAnd o s

/-- OR (R184). -/
def execOr (o : Operand) (s : State) : Result := execAlu aluOr o s

/-- XOR (R185). -/
def execXor (o : Operand) (s : State) : Result := execAlu aluXor o s

/-- NOT (R186). -/
def execNot (o : Operand) (s : State) : Result := execAlu aluNot o s

/-- SHL (R187). -/
def execShl (o : Operand) (s : State) : Result := execAlu aluShl o s

/-- SHR (R188). -/
def execShr (o : Operand) (s : State) : Result := execAlu aluShr o s

end Sys2Proof.Machine
end

