-- ==== Sys2Proof/Machine/Flags.lean ====
section
/-! DEFINITION. The machine has no flags (10_state.md R37): no instruction records carry, overflow or sign. What stands in
their place are the two conditions that JNEG and JZERO test on AC itself. -/

namespace Sys2Proof.Machine

/-- JNEG's condition, `sint(AC) < 0` (R37, R171). -/
def acNegative (s : State) : Bool := decide (sint s.ac < 0)

/-- JZERO's condition, `AC = 0x0000` (R37, R172). -/
def acZero (s : State) : Bool := decide (s.ac = 0x0000#16)

end Sys2Proof.Machine
end

