-- ==== Sys2Proof/Machine/Jumps.lean ====
section
/-! DEFINITION. JUMP, JNEG and JZERO (43_jumps.md). Targets are absolute and are not checked here (R173, R174). -/

namespace Sys2Proof.Machine

/-- `if taken then PC <- OP`, after resolution, which runs whether or not the jump is taken (R125, R173). -/
def jumpIf (taken : State → Bool) (o : Operand) (s : State) : Result :=
  withOperand o s fun t => .next (if taken t then t.setPc t.op else t)

/-- JUMP: `PC <- OP` (R170). -/
def execJump (o : Operand) (s : State) : Result := jumpIf (fun _ => true) o s

/-- JNEG: `if sint(AC) < 0 then PC <- OP` (R171). -/
def execJneg (o : Operand) (s : State) : Result := jumpIf acNegative o s

/-- JZERO: `if AC = 0x0000 then PC <- OP` (R172). -/
def execJzero (o : Operand) (s : State) : Result := jumpIf acZero o s

end Sys2Proof.Machine
end

