-- ==== Sys2Proof/Machine/LoadStore.lean ====
section
/-! DEFINITION. LOAD and STORE (42_load_store.md). -/

namespace Sys2Proof.Machine

/-- LOAD: `AC <- OP` (R160). -/
def execLoad (o : Operand) (s : State) : Result := withOperand o s fun t => .next (t.setAc t.op)

/-- STORE: `MemWrite(OP, 1, AC, STORE_OOB)` (R161). -/
def execStore (o : Operand) (s : State) : Result :=
  withOperand o s fun t =>
    match memWrite t.op t.ac t with
    | .ok u    => .next u
    | .error a => .next (t.raise .storeOob a)

end Sys2Proof.Machine
end

