-- ==== Sys2Proof/Machine/System.lean ====
section
/-! DEFINITION. NULL and STOP (41_system.md). -/

namespace Sys2Proof.Machine

/-- NULL: the operand is resolved, the opcode writes nothing (R150). -/
def execNull (o : Operand) (s : State) : Result := withOperand o s fun t => .next t

/-- STOP: `halt(STOP)` (R151). -/
def execStop (o : Operand) (s : State) : Result := withOperand o s fun t => .next (t.halt .stop)

end Sys2Proof.Machine
end

