-- ==== Sys2Proof/Machine/Dispatch.lean ====
section
/-! DEFINITION. The meaning of each instruction after the pause point: operand resolution and execution (40_cycle.md R132). -/

namespace Sys2Proof.Machine

def exec (i : Instr) (s : State) : Host.Outcome State Fault Refusal :=
  match i with
  | .null o => Sys2Proof.Machine.execNull o s
  | .stop o => Sys2Proof.Machine.execStop o s
  | .load o => Sys2Proof.Machine.execLoad o s
  | .store o => Sys2Proof.Machine.execStore o s
  | .jump o => Sys2Proof.Machine.execJump o s
  | .jneg o => Sys2Proof.Machine.execJneg o s
  | .jzero o => Sys2Proof.Machine.execJzero o s
  | .add o => Sys2Proof.Machine.execAdd o s
  | .sub o => Sys2Proof.Machine.execSub o s
  | .and o => Sys2Proof.Machine.execAnd o s
  | .or o => Sys2Proof.Machine.execOr o s
  | .not o => Sys2Proof.Machine.execNot o s
  | .xor o => Sys2Proof.Machine.execXor o s
  | .shl o => Sys2Proof.Machine.execShl o s
  | .shr o => Sys2Proof.Machine.execShr o s

end Sys2Proof.Machine
end

