-- ==== Sys2Proof/Machine/Fetch.lean ====
section
/-! DEFINITION. The host's pre-fetch check (60_exceptions.md R223), fetch and decode (40_cycle.md R121 to R123), and where a word is
placed so that the next step fetches it. -/

namespace Sys2Proof.Machine

/-- "if DBG = WAITING_FOR_BREAKPOINT and uint(PC) in BP then DBG <- ENABLED" (R223). -/
def preFetchCheck (s : State) : State :=
  if s.dbg = .waitingForBreakpoint ∧ s.bp.has s.pc = true then s.setDbg .enabled else s

/-- Fetch and decode: the state with IR and PC written, or the faulted state the step ends in (R121 to R123). -/
def fetch (s : State) : Except State State :=
  match memRead s.pc s with
  | .error a => .error (s.raise .fetchOob a)
  | .ok w =>
    match decode w with
    | .error .illegalOpcode => .error (s.raise .illegalOpcode s.pc)
    | .ok _ => .ok (s.latch w)

/-- `s` made ready to fetch and run `w` in its next step: the word in the cell at PC; and, only where `s` would not fetch or
would pause first, RUN running, no hold, a PC that exists, a host that does not pause (log 9). -/
def placeWord (w : Word) (s : State) : State :=
  let pc := if inBounds s.pc then s.pc else Config.entryPoint
  let t : State := { s with run := .running, held := false, pc := pc, mem := s.mem.write (uint pc) w }
  if (preFetchCheck t).dbg = .enabled then t.setDbg .disabled else t

end Sys2Proof.Machine
end

