-- ==== Sys2Proof/Machine/Host.lean ====
section
/-! DEFINITION. A step up to the pause point, and the host's answers there (60_exceptions.md R224 to R231). -/

namespace Sys2Proof.Machine

/-- Where the part of a step before operand resolution leads. -/
inductive Progress where
  /-- There is no step. -/
  | stopped (r : Fault)
  /-- The step ends here: a fault of fetch, the start of a hold, a command that does not resume, or a quit. -/
  | ended (s : State)
  /-- The pause point is passed: IR is executed next, in this state. -/
  | passes (s : State)
deriving DecidableEq, Repr

/-- One command of the host, given while the core is held (R225 to R228). -/
def obey (c : HostCommand) (s : State) : Progress :=
  match c with
  | .next               => .passes (s.setHeld false)
  | .nextBreakpoint     => .passes ((s.setDbg .waitingForBreakpoint).setHeld false)
  | .addBreakpoint a    => .ended (s.setBp (s.bp.insert a))
  | .deleteBreakpoint a => .ended (s.setBp (s.bp.erase a))
  | .listBreakpoints    => .ended s
  | .mem _ _            => .ended s
  | .finish             => .passes ((s.setDbg .disabled).setHeld false)
  | .quit               => .ended ((s.halt .quit).setHeld false)
  | .rejected           => .ended s

/-- The held core waits for the next command; without one it is stuck (R226, R231). -/
def answerHold (s : State) : Progress :=
  match s.commands with
  | []        => .stopped .holdUnanswered
  | c :: rest => obey c (s.setCommands rest)

/-- A cycle from its start to the pause point: pre-fetch check, fetch, and the hold of an ENABLED host (R120 steps 1 to 3). -/
def startCycle (s : State) : Progress :=
  match fetch (preFetchCheck s) with
  | .error t => .ended t
  | .ok t    => if t.dbg = .enabled then .ended (t.setHeld true) else .passes t

/-- A step up to the pause point. The core takes one only while RUN = RUNNING (R120). -/
def toPausePoint (s : State) : Progress :=
  match s.run with
  | .halted  => .stopped .coreHalted
  | .faulted => .stopped .coreFaulted
  | .running => if s.held then answerHold s else startCycle s

end Sys2Proof.Machine
end

