-- ==== Sys2Proof/Machine/Cycle.lean ====
section
/-! DEFINITION. The whole step (40_cycle.md R120, R135). -/

namespace Sys2Proof.Machine

/-- Resolution and execution of the instruction in IR (R35, R132). -/
def execIr (s : State) : Result :=
  match decode s.ir with
  | .ok i    => exec i s
  | .error _ => .fault .noInstruction

/-- One step: to the pause point, and past it where the host lets the core pass (R120, R135). -/
def cycleStep (s : State) : Result :=
  match toPausePoint s with
  | .stopped r => .fault r
  | .ended t   => .next t
  | .passes t  => execIr t

end Sys2Proof.Machine
end

