-- ==== Sys2Proof/Machine/Step.lean ====
section
/-! DEFINITION. The step function of the machine, and the placing of the word that the next step runs. -/

namespace Sys2Proof.Machine

/-- One step of the machine (R6, R120). -/
def step (s : State) : Host.Outcome State Fault Refusal := cycleStep s

/-- `s` with the word of `nbits` table bits `w` where the next step fetches it (log 9). -/
def State.withFetchWord (s : State) (nbits w : Nat) : State := placeWord (tableWord nbits w) s

end Sys2Proof.Machine
end

