-- ==== Sys2Proof/Machine/Image.lean ====
section
/-! DEFINITION. The image a run starts from: the assembler's lines as tokens (30_encoding.md R105 to R109), the loader
(20_memory.md R71) and construction, which is reset (70_reset_and_hazards.md R240 to R243). Splitting the text of a line into its
tokens is outside the block (00_scope.md R4). -/

namespace Sys2Proof.Machine

/-- One line of a program image: an index and raw data, or an index, a mnemonic and perhaps an operand (R105, R106). -/
inductive ImageLine where
  | raw (index : Nat) (v : Int)
  | instr (index : Nat) (mnemonic : String) (operand : Option (Char × Int))
deriving DecidableEq, Repr

/-- The mnemonics as R96 and R106 spell them; another one is a load error (R105). -/
def instrOfMnemonic (name : String) (o : Operand) : Option Instr :=
  if name = "NULL" then some (.null o)
  else if name = "STOP" then some (.stop o)
  else if name = "LOAD" then some (.load o)
  else if name = "STORE" then some (.store o)
  else if name = "JUMP" then some (.jump o)
  else if name = "JNEG" then some (.jneg o)
  else if name = "JZERO" then some (.jzero o)
  else if name = "ADD" then some (.add o)
  else if name = "SUB" then some (.sub o)
  else if name = "AND" then some (.and o)
  else if name = "OR" then some (.or o)
  else if name = "NOT" then some (.not o)
  else if name = "XOR" then some (.xor o)
  else if name = "SHL" then some (.shl o)
  else if name = "SHR" then some (.shr o)
  else none

/-- The mode characters of R99 and R106; another one is a load error (R105). -/
def modeOfChar (c : Char) : Option Mode :=
  if c = '.' then some .dotMode
  else if c = '@' then some .atMode
  else if c = '*' then some .starMode
  else if c = '+' then some .plusMode
  else none

/-- "`sign = 1` if `v < 0` else `0`, and `mag = |v|`; `|v|` must be at most 511" (R107); a larger one is refused (P7: log 11). -/
def operandOfInt (m : Mode) (v : Int) : Option Operand :=
  if v.natAbs < Config.magnitudes then
    some { sign := if v < 0 then .minus else .plus, mode := m, mag := v.natAbs }
  else none

/-- A mnemonic with no operand stands for the operand `.0` (R109). -/
def operandOfTokens (t : Option (Char × Int)) : Option Operand :=
  match t with
  | none => operandOfInt .dotMode 0
  | some (c, v) =>
    match modeOfChar c with
    | some m => operandOfInt m v
    | none   => none

/-- A raw-data line stores `w16(v)` (R108); a value outside -32768 to 65535 is refused (P7: log 11). -/
def rawWord (v : Int) : Option Word :=
  if -32768 ≤ v ∧ v ≤ 65535 then some (w16 v) else none

/-- The index a line fills. -/
def ImageLine.index : ImageLine → Nat
  | .raw a _     => a
  | .instr a _ _ => a

/-- The word a line stores (R107 to R109). -/
def ImageLine.word : ImageLine → Option Word
  | .raw _ v => rawWord v
  | .instr _ name t =>
    match operandOfTokens t with
    | none   => none
    | some o =>
      match instrOfMnemonic name o with
      | none   => none
      | some i => some (encode i)

/-- The lines filled into `m` in their order; "Index must be 0–511; malformed lines abort loading fatally" (R105). -/
def loadInto (m : Memory) (lines : List ImageLine) : Option Memory :=
  match lines with
  | [] => some m
  | l :: rest =>
    if l.index < Config.memWords then
      match l.word with
      | some w => loadInto (m.write l.index w) rest
      | none   => none
    else none

/-- The loader: an image, or no run at all (R71, R243). A cell no line names holds `0x0000` (D13: log 2). -/
def loadImage (lines : List ImageLine) : Option Memory := loadInto [] lines

/-- Construction: the reset values of R43 with the run's image, interactive flag and host (R221, R242). -/
def State.construct (image : Memory) (interactive : Bool) (commands : List HostCommand) : State :=
  { State.reset with
    mem := image
    dbg := if interactive then .enabled else .disabled
    commands := commands }

end Sys2Proof.Machine
end

