-- ==== Sys2Proof/Machine/Observe.lean ====
section
/-! DEFINITION. What the outside sees of a run and what no instruction can read: the status outputs (00_scope.md R5, 60_exceptions.md
R224), the host's observations (R225, R229), the end of a run (R213) and the count of complete cycles (R133, R249). -/

namespace Sys2Proof.Machine

/-- The status outputs of R5 and R224. -/
structure StatusOutputs where
  run : RunState
  haltReason : HaltReason
  faultCause : FaultCause
  faultAddr : Word
  pc : Word
  ac : Word
  ir : Word
deriving DecidableEq, Repr

def statusOutputs (s : State) : StatusOutputs :=
  { run := s.run, haltReason := s.haltReason, faultCause := s.faultCause, faultAddr := s.faultAddr,
    pc := s.pc, ac := s.ac, ir := s.ir }

/-- The code of a fault cause (R200). -/
def FaultCause.code : FaultCause → Nat
  | .none          => 0
  | .fetchOob      => 1
  | .illegalOpcode => 2
  | .operandOob    => 3
  | .storeOob      => 4

/-- The four outcomes of R213; `none` while the run has no end. -/
inductive RunEnd where
  | none
  | haltedByStop
  | haltedByQuit
  | faulted (cause : FaultCause)
deriving DecidableEq, Repr

/-- "read off `RUN`, `HALT_REASON` and `FAULT_CAUSE`" (R213). -/
def runEnd (s : State) : RunEnd :=
  match s.run with
  | .running => .none
  | .faulted => .faulted s.faultCause
  | .halted =>
    match s.haltReason with
    | .quit => .haltedByQuit
    | _     => .haltedByStop

/-- The step taken from `s` completes a cycle: its opcode rule finishes without a fault, STOP's included; a cycle that
faults or is quit is not complete (R133, R249). -/
def completesCycle (s : State) : Bool :=
  match toPausePoint s with
  | .passes t =>
    match execIr t with
    | .next u => decide (u.run ≠ .faulted)
    | _       => false
  | _ => false

/-- The step taken from `s` ends a cycle, complete or faulted: it executes, or its fetch faults. -/
def endsCycle (s : State) : Bool :=
  match toPausePoint s with
  | .passes _  => true
  | .ended t   => decide (t.run = .faulted)
  | .stopped _ => false

/-- How many of the first `k` steps from `s` satisfy `p`. -/
def countSteps (p : State → Bool) (k : Nat) (s : State) : Nat :=
  match k with
  | 0 => 0
  | k + 1 =>
    match step s with
    | .next t => (if p s then 1 else 0) + countSteps p k t
    | _       => 0

/-- The cycle count of the first `k` steps from `s` (R249). -/
def cycleCount (k : Nat) (s : State) : Nat := countSteps completesCycle k s

/-- A cell as a dump shows it (R110): raw decimal when its opcode field is NULL's, else its four fields. -/
inductive DumpCell where
  | raw (v : Nat)
  | fields (sign : Sign) (opcode : Nat) (mode : Mode) (mag : Nat)
deriving DecidableEq, Repr

def dumpCell (w : Word) : DumpCell :=
  if opcodeField w = 0 then .raw (uint w)
  else .fields (signField w) (opcodeField w) (modeField w) (magField w)

/-- What the host observes; the text it prints is outside the block (R4, log 13). -/
inductive Observation where
  /-- The pause gate asks for a command; the host sees IR and PC already updated (R124). -/
  | prompt (pc ir : Word)
  /-- The echo of a STORE (R229). -/
  | storeEcho (addr value : Word)
  /-- The echo after a complete cycle (R229). -/
  | cycleEcho (pc ac : Word)
  /-- `list-breakpoints`: each address with the instruction its cell decodes to (R225). -/
  | breakpoints (l : List (Nat × Option Instr))
  /-- `mem --from lo --to hi`: the cells of the range (R225, R79). -/
  | cells (l : List (Nat × Word))
deriving DecidableEq, Repr

/-- The instruction a word decodes to, if any. -/
def decoded (w : Word) : Option Instr :=
  match decode w with
  | .ok i    => some i
  | .error _ => none

/-- The cells from `lo` on, `n` of them. -/
def cellsFrom (s : State) (lo : Nat) (n : Nat) : List (Nat × Word) :=
  match n with
  | 0     => []
  | n + 1 => (lo, s.wordAt lo) :: cellsFrom s (lo + 1) n

/-- What a command shows at once. -/
def commandShows (c : HostCommand) (s : State) : List Observation :=
  match c with
  | .listBreakpoints => [.breakpoints (s.bp.map fun b => (b.val, decoded (s.wordAt b.val)))]
  | .mem lo hi       => [.cells (cellsFrom s lo.val (hi.val + 1 - lo.val))]
  | _                => []

/-- The echoes of a cycle that has executed the word in `t.ir` from `t` to `u`, while DBG is not DISABLED (R229). -/
def cycleEchoes (t u : State) : List Observation :=
  if u.dbg = .disabled ∨ u.run = .faulted then []
  else
    match decode t.ir with
    | .ok (.store _) => [.storeEcho u.op u.ac, .cycleEcho u.pc u.ac]
    | _              => [.cycleEcho u.pc u.ac]

/-- What the host observes of the step taken from `s`. -/
def observe (s : State) : List Observation :=
  let shown := match s.held, s.commands with
    | true, c :: _ => commandShows c s
    | _, _         => []
  match toPausePoint s with
  | .stopped _ => []
  | .ended t   => if t.held then shown ++ [.prompt t.pc t.ir] else shown
  | .passes t  =>
    match execIr t with
    | .next u => shown ++ cycleEchoes t u
    | _       => shown

end Sys2Proof.Machine
end

