-- ==== Sys2Proof/Safety.lean ====
section
/-! DEFINITION. The terms in which claims are made: the invariant of the machine, the operand of an instruction as the spec's
tables give it (not as the model computes it), and the machine without its host. -/

namespace Sys2Proof.Machine

/-- The next state an outcome carries. -/
def nextOf (r : Result) : Option State :=
  match r with
  | .next t => some t
  | _       => none

/-! ## The invariant -/

/-- RUN, HALT_REASON, FAULT_CAUSE and FAULT_ADDR agree (R39), and FAULT_ADDR and IR are what the table of R200 and R210
say for the cause. -/
def State.statusWf (s : State) : Bool :=
  match s.run, s.haltReason, s.faultCause with
  | .running, .none, .none => decide (s.faultAddr = 0x0000#16)
  | .halted, .stop, .none => decide (s.faultAddr = 0x0000#16) && decide (opcodeField s.ir = 1)
  | .halted, .quit, .none => decide (s.faultAddr = 0x0000#16) && decide (opcodeField s.ir ≠ 15)
  | .faulted, .none, .fetchOob => decide (s.faultAddr = s.pc) && decide (512 ≤ uint s.pc)
  | .faulted, .none, .illegalOpcode =>
    decide (s.faultAddr = s.pc) && decide (uint s.pc < 512) && decide (opcodeField (s.wordAt (uint s.pc)) = 15)
  | .faulted, .none, .operandOob => decide (512 ≤ uint s.faultAddr) && decide (opcodeField s.ir ≠ 15)
  | .faulted, .none, .storeOob =>
    decide (512 ≤ uint s.faultAddr) && decide (s.faultAddr = s.op) && decide (opcodeField s.ir = 3)
  | _, _, _ => false

/-- A held core is running under an ENABLED host, with IR an instruction, PC one past its cell (R124, R226), and that cell
still holding IR: a hold changes nothing. -/
def State.holdWf (s : State) : Bool :=
  !s.held ||
    (decide (s.run = .running) && decide (s.dbg = .enabled) && decide (opcodeField s.ir ≠ 15) &&
      decide (1 ≤ uint s.pc) && decide (uint s.pc ≤ 512) && decide (s.wordAt (uint s.pc - 1) = s.ir))

/-- The invariant: memory and breakpoints in canonical form, status fields consistent, the hold as R226 says. -/
abbrev State.Inv (s : State) : Prop :=
  s.mem.wf = true ∧ s.bp.wf = true ∧ s.statusWf = true ∧ s.holdWf = true

/-! ## The operand, as the tables of R126 and R131 give it -/

/-- `v` is the operand of `o` in `s`: the mode's column OP in R126, with every address it reads in 0 to 511. -/
abbrev OperandReads (o : Operand) (s : State) (v : Word) : Prop :=
  (o.mode = .dotMode → sint v = o.signedAddress) ∧
  (o.mode = .atMode → 0 ≤ o.signedAddress ∧ o.signedAddress ≤ 511 ∧ v = s.wordAt o.signedAddress.toNat) ∧
  (o.mode = .starMode → uint (s.wordAt o.mag) < 512 ∧ v = s.wordAt (uint (s.wordAt o.mag))) ∧
  (o.mode = .plusMode → 0 ≤ sint s.ac + o.signedAddress ∧ sint s.ac + o.signedAddress ≤ 511 ∧
    v = s.wordAt (sint s.ac + o.signedAddress).toNat)

/-- Resolving `o` in `s` faults at the address `a`: the conditions of R131 and the addresses of R128 to R130. -/
abbrev OperandFaults (o : Operand) (s : State) (a : Word) : Prop :=
  (o.mode = .dotMode → False) ∧
  (o.mode = .atMode → o.sign = .minus ∧ 0 < o.mag ∧ a = w16 o.signedAddress) ∧
  (o.mode = .starMode → 512 ≤ uint (s.wordAt o.mag) ∧ a = s.wordAt o.mag) ∧
  (o.mode = .plusMode → (sint s.ac + o.signedAddress < 0 ∨ 511 < sint s.ac + o.signedAddress) ∧
    a = w16 (sint s.ac + o.signedAddress))

/-- The words of code `code` decode to `mk` of the word's operand fields (R93, R96). -/
def EncodedAs (mk : Operand → Instr) (code : Nat) : Prop :=
  ∀ w : Word, uint w / 2048 % 16 = code →
    decode w = .ok (mk { sign := if 32768 ≤ uint w then .minus else .plus,
                         mode := modeOfCode (uint w / 512 % 4), mag := uint w % 512 })

/-- The instruction faults on an operand that cannot be read: OPERAND_OOB at the offending address, everything but the
status fields as it was, OP unwritten (R125, R131, R210). -/
def FaultsOnBadOperand (mk : Operand → Instr) : Prop :=
  ∀ (o : Operand) (s : State) (a : Word), o.wellFormed = true → OperandFaults o s a →
    exec (mk o) s = .next { s with run := .faulted, faultCause := .operandOob, faultAddr := a }

/-! ## Runs and their host -/

/-- The state without its host: DISABLED, no breakpoints, no commands, no hold (R233). -/
def State.hostless (s : State) : State :=
  { s with dbg := .disabled, bp := [], commands := [], held := false }

/-- `k` steps of the machine, stopping at the first fault or refusal. -/
def runSteps (k : Nat) (s : State) : Result :=
  match k with
  | 0 => .next s
  | k + 1 =>
    match step s with
    | .next t    => runSteps k t
    | .fault r   => .fault r
    | .refused r => .refused r

/-- The host lets the cycle that starts in `s` pass its pause point (R223, R226). -/
def State.passesPause (s : State) : Prop :=
  s.dbg = .disabled ∨ (s.dbg = .waitingForBreakpoint ∧ s.bp.has s.pc = false)

end Sys2Proof.Machine
end

