-- ==== Sys2Proof/Certificates/Slice0/Obligations.lean ====
section
/-! DEFINITION. The statements for the provers, from the numbered rules of the spec. `OperandReads`, `OperandFaults`, `EncodedAs`,
`FaultsOnBadOperand` and `State.Inv` are defined in Safety.lean. -/

open Sys2Proof Sys2Proof.Machine

/-! ## Encoding (30_encoding.md) -/

/-- R95: decoding an encoded instruction gives it back, for every instruction and every operand the encoding admits. The bit
positions and codes are the spec's decisions D1 to D3 (log 10). -/
def Obligations.DecodeOfEncodeIsIdentity : Prop :=
  ∀ i : Instr, i.wellFormed = true → decode (encode i) = .ok i

/-- R95: encoding a decoded word gives the word back, so no bit of it is dropped; and every decoded instruction is well formed. -/
def Obligations.EncodeOfDecodeIsIdentity : Prop :=
  ∀ (w : Word) (i : Instr), decode w = .ok i → i.wellFormed = true ∧ encode i = w

/-- R98: the only words that are no instruction are 0x7800 to 0x7FFF and 0xF800 to 0xFFFF (code 15 by decision D2). -/
def Obligations.IllegalWordsAreExactlyOpcodeFifteen : Prop :=
  ∀ w : Word, decode w = .error .illegalOpcode ↔
    (0x7800 ≤ uint w ∧ uint w ≤ 0x7FFF) ∨ 0xF800 ≤ uint w

/-- Words of 95_test_vectors.md, one or more of each family, decode to the instruction their text reads. -/
def Obligations.SampleWordsDecode : Prop :=
  decode 0x0258#16 = .ok (.null { sign := .plus, mode := .atMode, mag := 88 }) ∧
  decode 0x0800#16 = .ok (.stop { sign := .plus, mode := .dotMode, mag := 0 }) ∧
  decode 0x91FF#16 = .ok (.load { sign := .minus, mode := .dotMode, mag := 511 }) ∧
  decode 0x9C40#16 = .ok (.store { sign := .minus, mode := .starMode, mag := 64 }) ∧
  decode 0x2232#16 = .ok (.jump { sign := .plus, mode := .atMode, mag := 50 }) ∧
  decode 0x5E00#16 = .ok (.not { sign := .plus, mode := .plusMode, mag := 0 }) ∧
  decode 0x60FF#16 = .ok (.xor { sign := .plus, mode := .dotMode, mag := 255 }) ∧
  decode 0xF001#16 = .ok (.shr { sign := .minus, mode := .dotMode, mag := 1 }) ∧
  decode 0x7800#16 = .error .illegalOpcode

/-- R107: an integer of an instruction line with |v| at most 511 becomes a well-formed operand of that mode whose signed
address is the integer, with sign 1 exactly when it is below 0 (decision D22); a larger one is refused (P7, log 11). -/
def Obligations.AssembledOperandHasItsInteger : Prop :=
  ∀ (m : Mode) (v : Int),
    (v.natAbs ≤ 511 → ∃ o, operandOfInt m v = some o ∧ o.wellFormed = true ∧ o.mode = m ∧ o.signedAddress = v ∧
      (o.sign = .minus ↔ v < 0)) ∧
    (511 < v.natAbs → operandOfInt m v = none)

/-- R71, R105: an image that loads is canonical memory of 512 cells, a cell no line names holds 0x0000 (D13, log 2), and the
last line to name a cell leaves its word there (log 12). -/
def Obligations.LoadedImageHoldsItsLines : Prop :=
  ∀ (before after : List ImageLine) (l : ImageLine) (m : Memory), loadImage (before ++ l :: after) = some m →
    m.wf = true ∧ l.index < 512 ∧
    ((∀ k ∈ after, k.index ≠ l.index) → l.word = some (m.read l.index)) ∧
    (∀ a, (∀ k ∈ before ++ l :: after, k.index ≠ a) → m.read a = 0x0000#16)

/-! ## Every instruction: its encoding, its effect on every operand that can be read, and its fault on every other operand.
In the state of the statements IR and PC already hold what fetch wrote (R123). The codes and the places of the fields are the
spec's decisions D1 to D3 (log 10); `EncodedAs` states the "Encoding" line of each rule. -/

/-- R150: NULL changes nothing but OP, which every cycle writes (R125). -/
def Obligations.NullChangesNoState : Prop :=
  EncodedAs .null 0 ∧
  (∀ (o : Operand) (s : State) (v : Word), o.wellFormed = true → OperandReads o s v →
    exec (.null o) s = .next { s with op := v }) ∧
  FaultsOnBadOperand .null

/-- R151, R13: STOP halts the core with the reason STOP (D19); AC, PC and memory are unchanged. -/
def Obligations.StopHaltsTheCore : Prop :=
  EncodedAs .stop 1 ∧
  (∀ (o : Operand) (s : State) (v : Word), o.wellFormed = true → OperandReads o s v →
    exec (.stop o) s = .next { s with op := v, run := .halted, haltReason := .stop }) ∧
  FaultsOnBadOperand .stop

/-- R160: LOAD copies the operand into AC; the operand of each mode is `OperandReads` (R127 to R130). -/
def Obligations.LoadCopiesOperandToAc : Prop :=
  EncodedAs .load 2 ∧
  (∀ (o : Operand) (s : State) (v : Word), o.wellFormed = true → OperandReads o s v →
    exec (.load o) s = .next { s with op := v, ac := v }) ∧
  FaultsOnBadOperand .load

/-- R161: STORE writes AC to the cell whose address is the operand, no other cell and nothing else; an operand that is no address
raises STORE_OOB at it and nothing is written. Memory is in canonical form, which every step keeps (StepKeepsInvariant). -/
def Obligations.StoreWritesAcAtOperand : Prop :=
  EncodedAs .store 3 ∧
  (∀ (o : Operand) (s : State) (v : Word), o.wellFormed = true → s.mem.wf = true → OperandReads o s v → uint v < 512 →
    ∃ m : Memory, exec (.store o) s = .next { s with op := v, mem := m } ∧ m.wf = true ∧
      m.read (uint v) = s.ac ∧ ∀ a, a ≠ uint v → m.read a = s.wordAt a) ∧
  (∀ (o : Operand) (s : State) (v : Word), o.wellFormed = true → OperandReads o s v → 512 ≤ uint v →
    exec (.store o) s = .next { s with op := v, run := .faulted, faultCause := .storeOob, faultAddr := v }) ∧
  FaultsOnBadOperand .store

/-- R170: JUMP writes the operand into PC, whatever it is. -/
def Obligations.JumpSetsPcToOperand : Prop :=
  EncodedAs .jump 4 ∧
  (∀ (o : Operand) (s : State) (v : Word), o.wellFormed = true → OperandReads o s v →
    exec (.jump o) s = .next { s with op := v, pc := v }) ∧
  FaultsOnBadOperand .jump

/-- R171: JNEG writes the operand into PC when AC is negative, else leaves the PC fetch gave it; resolution runs either way. -/
def Obligations.JnegJumpsOnNegativeAc : Prop :=
  EncodedAs .jneg 5 ∧
  (∀ (o : Operand) (s : State) (v : Word), o.wellFormed = true → OperandReads o s v →
    (sint s.ac < 0 → exec (.jneg o) s = .next { s with op := v, pc := v }) ∧
    (0 ≤ sint s.ac → exec (.jneg o) s = .next { s with op := v })) ∧
  FaultsOnBadOperand .jneg

/-- R172: JZERO writes the operand into PC when AC is the all-zero word, else leaves the PC fetch gave it. -/
def Obligations.JzeroJumpsOnZeroAc : Prop :=
  EncodedAs .jzero 6 ∧
  (∀ (o : Operand) (s : State) (v : Word), o.wellFormed = true → OperandReads o s v →
    (s.ac = 0x0000#16 → exec (.jzero o) s = .next { s with op := v, pc := v }) ∧
    (s.ac ≠ 0x0000#16 → exec (.jzero o) s = .next { s with op := v })) ∧
  FaultsOnBadOperand .jzero

/-- R181: ADD; the sum wraps, and the signed and the unsigned reading give the same AC. -/
def Obligations.AddWrapsModuloWord : Prop :=
  EncodedAs .add 7 ∧
  (∀ (o : Operand) (s : State) (v : Word), o.wellFormed = true → OperandReads o s v →
    exec (.add o) s = .next { s with op := v, ac := w16 (sint s.ac + sint v) } ∧
    w16 (sint s.ac + sint v) = w16 (uint s.ac + uint v)) ∧
  FaultsOnBadOperand .add

/-- R182: SUB; the difference wraps, and the unsigned reading gives the same result. -/
def Obligations.SubWrapsModuloWord : Prop :=
  EncodedAs .sub 8 ∧
  (∀ (o : Operand) (s : State) (v : Word), o.wellFormed = true → OperandReads o s v →
    exec (.sub o) s = .next { s with op := v, ac := w16 (sint s.ac - sint v) } ∧
    w16 (sint s.ac - sint v) = w16 ((uint s.ac : Int) - (uint v : Int))) ∧
  FaultsOnBadOperand .sub

/-- R183: AND, bit by bit. -/
def Obligations.AndIsBitwise : Prop :=
  EncodedAs .and 9 ∧
  (∀ (o : Operand) (s : State) (v : Word), o.wellFormed = true → OperandReads o s v →
    ∃ r : Word, exec (.and o) s = .next { s with op := v, ac := r } ∧
      ∀ k, k < 16 → r.getLsbD k = (s.ac.getLsbD k && v.getLsbD k)) ∧
  FaultsOnBadOperand .and

/-- R184: OR, bit by bit. -/
def Obligations.OrIsBitwise : Prop :=
  EncodedAs .or 10 ∧
  (∀ (o : Operand) (s : State) (v : Word), o.wellFormed = true → OperandReads o s v →
    ∃ r : Word, exec (.or o) s = .next { s with op := v, ac := r } ∧
      ∀ k, k < 16 → r.getLsbD k = (s.ac.getLsbD k || v.getLsbD k)) ∧
  FaultsOnBadOperand .or

/-- R185: XOR, bit by bit. -/
def Obligations.XorIsBitwise : Prop :=
  EncodedAs .xor 12 ∧
  (∀ (o : Operand) (s : State) (v : Word), o.wellFormed = true → OperandReads o s v →
    ∃ r : Word, exec (.xor o) s = .next { s with op := v, ac := r } ∧
      ∀ k, k < 16 → r.getLsbD k = (s.ac.getLsbD k ^^ v.getLsbD k)) ∧
  FaultsOnBadOperand .xor

/-- R186: NOT complements every bit of AC, which is `w16(-sint(AC) - 1)`; the operand is resolved and not used. -/
def Obligations.NotComplementsAc : Prop :=
  EncodedAs .not 11 ∧
  (∀ (o : Operand) (s : State) (v : Word), o.wellFormed = true → OperandReads o s v →
    ∃ r : Word, exec (.not o) s = .next { s with op := v, ac := r } ∧
      (∀ k, k < 16 → r.getLsbD k = !(s.ac.getLsbD k)) ∧ r = w16 (-(sint s.ac) - 1)) ∧
  FaultsOnBadOperand .not

/-- R187: SHL by `n = uint(OP)`: AC times 2^n cut to the word, 0 from 16 on (D11, log 10); bit k is the old bit k - n, zeros enter
at bit 0. The direction is the spec's reading of the mnemonic (G3). -/
def Obligations.ShlShiftsLeftByOperand : Prop :=
  EncodedAs .shl 13 ∧
  (∀ (o : Operand) (s : State) (v : Word), o.wellFormed = true → OperandReads o s v →
    ∃ r : Word, exec (.shl o) s = .next { s with op := v, ac := r } ∧
      (uint v < 16 → r = w16 (uint s.ac * 2 ^ uint v)) ∧ (16 ≤ uint v → r = 0x0000#16) ∧
      ∀ k, k < 16 → r.getLsbD k = (decide (uint v ≤ k) && s.ac.getLsbD (k - uint v))) ∧
  FaultsOnBadOperand .shl

/-- R188: SHR by `n = uint(OP)`, arithmetic (D10, log 10): the floor of sint(AC) / 2^min(n, 16); bit k is the old bit k + n, and
copies of bit 15 enter at the top, for every n (D11). -/
def Obligations.ShrShiftsRightArithmetically : Prop :=
  EncodedAs .shr 14 ∧
  (∀ (o : Operand) (s : State) (v : Word), o.wellFormed = true → OperandReads o s v →
    ∃ r : Word, exec (.shr o) s = .next { s with op := v, ac := r } ∧
      r = w16 (Int.fdiv (sint s.ac) (2 ^ min (uint v) 16)) ∧
      ∀ k, k < 16 → r.getLsbD k = s.ac.getLsbD (min (k + uint v) 15)) ∧
  FaultsOnBadOperand .shr

/-! ## Operand resolution (40_cycle.md, 20_memory.md) -/

/-- R125: every instruction resolves its operand before its rule: either the operand can be read and OP holds it afterwards,
or the cycle ends in OPERAND_OOB and OP and everything but the status fields are as they were. Never both. -/
def Obligations.EveryInstructionResolvesItsOperand : Prop :=
  ∀ (i : Instr) (s : State), i.wellFormed = true →
    ((∃ v, OperandReads i.operand s v ∧ (∀ a, ¬ OperandFaults i.operand s a) ∧
        ∃ t, exec i s = .next t ∧ t.op = v) ∨
     (∃ a, OperandFaults i.operand s a ∧ (∀ v, ¬ OperandReads i.operand s v) ∧ 512 ≤ uint a ∧
        exec i s = .next { s with run := .faulted, faultCause := .operandOob, faultAddr := a }))

/-- R129: STAR reads the cell at the unsigned magnitude, whatever the sign, and then the cell that word names; the inner read
never faults, the outer one faults at the word when it is 512 or more. -/
def Obligations.StarIsDoubleIndirection : Prop :=
  ∀ (sg : Sign) (m : Nat) (s : State), m < 512 →
    (uint (s.wordAt m) < 512 →
      operandValue { sign := sg, mode := .starMode, mag := m } s = .ok (s.wordAt (uint (s.wordAt m)))) ∧
    (512 ≤ uint (s.wordAt m) →
      operandValue { sign := sg, mode := .starMode, mag := m } s = .error (s.wordAt m))

/-- R63: an integer the block can produce is presented as a word that is in bounds exactly when the integer is 0 to 511, and then
names the same cell; so no address wraps into memory (D9). -/
def Obligations.PresentedAddressKeepsItsVerdict : Prop :=
  ∀ (i : Int) (s : State), -33279 ≤ i → i ≤ 65535 →
    (0 ≤ i ∧ i ≤ 511 → memRead (w16 i) s = .ok (s.wordAt i.toNat)) ∧
    (i < 0 ∨ 511 < i → memRead (w16 i) s = .error (w16 i))

/-! ## Frames -/

/-- R180: an ALU instruction writes AC and (by resolution, from the old AC) OP, and nothing else: no PC, no IR, no cell of memory, no
status; the only fault it raises is OPERAND_OOB, and then AC and OP stay too. -/
def Obligations.AluInstructionsWriteOnlyAc : Prop :=
  ∀ (i : Instr) (o : Operand) (s t : State), o.wellFormed = true →
    i ∈ [Instr.add o, .sub o, .and o, .or o, .xor o, .not o, .shl o, .shr o] → exec i s = .next t →
    t.pc = s.pc ∧ t.ir = s.ir ∧ (∀ a, t.wordAt a = s.wordAt a) ∧ t.mem = s.mem ∧ t.haltReason = s.haltReason ∧
    t.held = s.held ∧ t.dbg = s.dbg ∧ t.bp = s.bp ∧ t.commands = s.commands ∧
    ((OperandReads o s t.op ∧ t.run = s.run ∧ t.faultCause = s.faultCause ∧ t.faultAddr = s.faultAddr) ∨
     (OperandFaults o s t.faultAddr ∧ t.run = .faulted ∧ t.faultCause = .operandOob ∧ t.ac = s.ac ∧ t.op = s.op))

/-- The frame of NULL, STOP, LOAD, JUMP, JNEG and JZERO: no cell of memory, no IR, nothing of the host; AC only by LOAD; PC only
by the jumps, and then to the operand; RUN and HALT_REASON only by STOP or a fault. -/
def Obligations.NonStoringInstructionsFrame : Prop :=
  ∀ (i : Instr) (o : Operand) (s t : State), o.wellFormed = true →
    i ∈ [Instr.null o, .stop o, .load o, .jump o, .jneg o, .jzero o] → exec i s = .next t →
    t.ir = s.ir ∧ (∀ a, t.wordAt a = s.wordAt a) ∧ t.mem = s.mem ∧
    t.held = s.held ∧ t.dbg = s.dbg ∧ t.bp = s.bp ∧ t.commands = s.commands ∧
    (t.ac = s.ac ∨ (i = .load o ∧ OperandReads o s t.ac)) ∧
    (t.pc = s.pc ∨ (i ∈ [Instr.jump o, .jneg o, .jzero o] ∧ OperandReads o s t.pc)) ∧
    ((t.run = s.run ∧ t.haltReason = s.haltReason ∧ t.faultCause = s.faultCause ∧ t.faultAddr = s.faultAddr) ∨
     (i = .stop o ∧ t.run = .halted ∧ t.haltReason = .stop ∧ t.faultCause = s.faultCause ∧ t.faultAddr = s.faultAddr) ∨
     (OperandFaults o s t.faultAddr ∧ t.run = .faulted ∧ t.faultCause = .operandOob ∧ t.haltReason = s.haltReason ∧
      t.op = s.op))

/-- The frame of STORE: the address stored to is the operand's value, as the meaning computes it in the state before; every
cell outside it reads as before, AC, PC, IR and the host's part are unchanged, and a STORE that faults changes no cell. -/
def Obligations.StoreFrame : Prop :=
  ∀ (o : Operand) (s t : State), o.wellFormed = true → exec (.store o) s = .next t →
    t.ac = s.ac ∧ t.pc = s.pc ∧ t.ir = s.ir ∧ t.haltReason = s.haltReason ∧
    t.held = s.held ∧ t.dbg = s.dbg ∧ t.bp = s.bp ∧ t.commands = s.commands ∧
    (∀ v, operandValue o s = .ok v →
      (∀ a, a ≠ uint v → t.wordAt a = s.wordAt a) ∧ t.op = v ∧
      (512 ≤ uint v → t.mem = s.mem) ∧
      (uint v < 512 → t.run = s.run ∧ t.faultCause = s.faultCause ∧ t.faultAddr = s.faultAddr)) ∧
    (∀ v, operandValue o s = .error v → t.mem = s.mem ∧ t.op = s.op)

/-! ## Whole-machine rules -/

/-- R31, R30: AC changes only in a step that executes LOAD or an ALU instruction; no other instruction, no fetch and no host
command writes it. -/
def Obligations.OnlyLoadAndAluWriteAc : Prop :=
  ∀ s t : State, step s = .next t → t.ac ≠ s.ac →
    ∃ (u : State) (i : Instr) (o : Operand), toPausePoint s = .passes u ∧ decode u.ir = .ok i ∧
      i ∈ [Instr.load o, .add o, .sub o, .and o, .or o, .xor o, .not o, .shl o, .shr o]

/-- The "no other writer" half of R34: in a step PC is unchanged, or fetch has written PC + 1 with no
wrap, or a jump has written the operand: JUMP always, JNEG only when AC is negative, JZERO only when AC is zero. -/
def Obligations.PcChangesOnlyByFetchAndJumps : Prop :=
  ∀ s t : State, step s = .next t →
    t.pc = s.pc ∨
    (s.held = false ∧ uint s.pc < 512 ∧ uint t.pc = uint s.pc + 1) ∨
    (∃ (u : State) (i : Instr) (o : Operand), toPausePoint s = .passes u ∧ decode u.ir = .ok i ∧ OperandReads o u t.pc ∧
      t.op = t.pc ∧ (i = .jump o ∨ (i = .jneg o ∧ sint s.ac < 0) ∨ (i = .jzero o ∧ s.ac = 0x0000#16)))

/-- R76: a step writes no cell, or it executes a STORE and writes AC into the one cell its operand names. Memory is in canonical
form, which every step keeps (StepKeepsInvariant). -/
def Obligations.OnlyStoreWritesMemory : Prop :=
  ∀ s t : State, s.mem.wf = true → step s = .next t → t.mem ≠ s.mem →
    ∃ (u : State) (o : Operand), toPausePoint s = .passes u ∧ decode u.ir = .ok (.store o) ∧ OperandReads o u t.op ∧
      uint t.op < 512 ∧ t.wordAt (uint t.op) = s.ac ∧ ∀ a, a ≠ uint t.op → t.wordAt a = s.wordAt a

/-- R204: STORE_OOB is raised only by STORE, when its operand is not an address 0 to 511, and nothing is written. -/
def Obligations.StoreOobOnlyByStore : Prop :=
  (∀ (i : Instr) (s t : State), i.wellFormed = true → exec i s = .next t → s.faultCause ≠ .storeOob →
    t.faultCause = .storeOob →
    ∃ o, i = .store o ∧ OperandReads o s t.faultAddr ∧ 512 ≤ uint t.faultAddr ∧ t.mem = s.mem ∧ t.run = .faulted) ∧
  (∀ (o : Operand) (s : State) (v : Word), o.wellFormed = true → OperandReads o s v → 512 ≤ uint v →
    ∃ t, exec (.store o) s = .next t ∧ t.run = .faulted ∧ t.faultCause = .storeOob ∧ t.faultAddr = v ∧ t.mem = s.mem)

/-- R208, R211: a step is taken only from a state with no fault recorded, so a cause and its address are written once in a run
(D15). The invariant rules out states whose status fields disagree. -/
def Obligations.FaultIsRecordedOnce : Prop :=
  ∀ s t : State, s.Inv → step s = .next t →
    s.faultCause = .none ∧ s.haltReason = .none ∧ s.run = .running ∧
    (t.faultCause ≠ .none ↔ t.run = .faulted) ∧ (t.haltReason ≠ .none ↔ t.run = .halted)

/-- R120, R134: under the invariant the core has a next step exactly while RUN is RUNNING and it is not held by a host that gives
no more commands (R231; the list of commands is the model's, log 3). No instruction and no data end a run in any other way. -/
def Obligations.RunningCoreAlwaysSteps : Prop :=
  ∀ s : State, s.Inv →
    ((∃ t, step s = .next t) ↔ s.run = .running ∧ (s.held = true → s.commands ≠ []))

/-! ## The cycle (40_cycle.md) -/

/-- R120, R123, R132: when the word at PC decodes to `i` and the host lets the cycle pass, the step is `exec i` in the state with
the word in IR and PC advanced by one; when the core is held and the next command resumes it, the step is `exec` of the
instruction in IR, with the command taken off and DBG as the command says. -/
def Obligations.StepRunsDecodedInstruction : Prop :=
  (∀ (s : State) (i : Instr), s.run = .running → s.held = false → uint s.pc < 512 →
    decode (s.wordAt (uint s.pc)) = .ok i → s.passesPause →
    step s = exec i { s with ir := s.wordAt (uint s.pc), pc := w16 (uint s.pc + 1) }) ∧
  (∀ (s : State) (i : Instr) (rest : List HostCommand), s.run = .running → s.held = true → decode s.ir = .ok i →
    (s.commands = .next :: rest → step s = exec i { s with held := false, commands := rest }) ∧
    (s.commands = .nextBreakpoint :: rest →
      step s = exec i { s with held := false, commands := rest, dbg := .waitingForBreakpoint }) ∧
    (s.commands = .finish :: rest → step s = exec i { s with held := false, commands := rest, dbg := .disabled }))

/-- R121, R210: a PC of 512 or more faults at the fetch, FETCH_OOB with that PC, before anything of the core is written (D7),
whatever the host's state: no prompt comes first (R234). -/
def Obligations.FetchOutOfBoundsFaults : Prop :=
  ∀ s : State, s.run = .running → s.held = false → 512 ≤ uint s.pc →
    step s = .next { s with run := .faulted, faultCause := .fetchOob, faultAddr := s.pc }

/-- R122, R210: a fetched word of opcode 15 faults ILLEGAL_OPCODE at its address, with PC and IR as they were (D4); of the host only
the pre-fetch check may have changed DBG (R223), and no prompt comes (R234). -/
def Obligations.IllegalOpcodeFaultsAtFetch : Prop :=
  ∀ s : State, s.run = .running → s.held = false → uint s.pc < 512 → uint (s.wordAt (uint s.pc)) / 2048 % 16 = 15 →
    ∃ d : DbgState, step s = .next { s with run := .faulted, faultCause := .illegalOpcode, faultAddr := s.pc, dbg := d } ∧
      (d ≠ s.dbg → s.dbg = .waitingForBreakpoint ∧ d = .enabled)

/-- R211, R212: no step follows HALTED or FAULTED; the model answers each by a fault reason of its own name (log 5). -/
def Obligations.NoStepAfterTheEnd : Prop :=
  ∀ s : State,
    (s.run = .halted → step s = .fault .coreHalted) ∧ (s.run = .faulted → step s = .fault .coreFaulted)

/-- R170, R174: a jump to a word of 512 or more completes, and the next step faults FETCH_OOB with that PC (D7): JUMP, JNEG when it is
taken, and JZERO when it is taken. -/
def Obligations.OutOfRangeJumpFaultsAtNextFetch : Prop :=
  ∀ (i : Instr) (o : Operand) (s : State) (v : Word), o.wellFormed = true → OperandReads o s v → 512 ≤ uint v →
    s.run = .running → s.held = false →
    (i = .jump o ∨ (i = .jneg o ∧ sint s.ac < 0) ∨ (i = .jzero o ∧ s.ac = 0x0000#16)) →
    ∃ t, exec i s = .next t ∧ t.run = .running ∧ t.pc = v ∧
      step t = .next { t with run := .faulted, faultCause := .fetchOob, faultAddr := v }

/-- R77, R246: a STORE into the cell at PC is what the next step fetches and runs; the STORE's own cycle leaves IR alone. -/
def Obligations.StoredWordIsFetchedNext : Prop :=
  ∀ (o : Operand) (s t : State) (i : Instr), o.wellFormed = true → s.mem.wf = true → s.run = .running → s.held = false →
    s.dbg = .disabled → OperandReads o s s.pc → uint s.pc < 512 → decode s.ac = .ok i → exec (.store o) s = .next t →
    t.ir = s.ir ∧ step t = exec i { t with ir := s.ac, pc := w16 (uint s.pc + 1) }

/-- R162: STORE at the address `a` (`STORE .a`) followed by LOAD from it (`LOAD @a`) gives the stored value (C4). -/
def Obligations.StoreThenLoadReturnsTheValue : Prop :=
  ∀ (a : Nat) (s t : State), a < 512 → s.mem.wf = true →
    exec (.store { sign := .plus, mode := .dotMode, mag := a }) s = .next t →
    exec (.load { sign := .plus, mode := .atMode, mag := a }) t = .next { t with op := s.ac, ac := s.ac } ∧ t.ac = s.ac

/-- R186: NOT and then `ADD .1` negates AC, and -32768 negates to itself. -/
def Obligations.NotThenAddOneNegates : Prop :=
  ∀ (o : Operand) (s : State) (v : Word), o.wellFormed = true → OperandReads o s v →
    ∃ t u, exec (.not o) s = .next t ∧ exec (.add { sign := .plus, mode := .dotMode, mag := 1 }) t = .next u ∧
      u.ac = w16 (-(sint s.ac)) ∧ (s.ac = 0x8000#16 → u.ac = 0x8000#16)

/-! ## The host (60_exceptions.md) -/

/-- R124, R226: when the host is ENABLED at the pause point the core is held there, with IR and PC already updated and nothing
else changed (`held` is the model's form of the pause state, log 6). -/
def Obligations.EnabledHostHoldsAfterFetch : Prop :=
  ∀ (s : State) (i : Instr), s.run = .running → s.held = false → uint s.pc < 512 →
    decode (s.wordAt (uint s.pc)) = .ok i →
    (s.dbg = .enabled ∨ (s.dbg = .waitingForBreakpoint ∧ ∃ b ∈ s.bp, b.val = uint s.pc)) →
    step s = .next { s with ir := s.wordAt (uint s.pc), pc := w16 (uint s.pc + 1), held := true, dbg := .enabled }

/-- R223: the pre-fetch check: DBG becomes ENABLED when it is WAITING_FOR_BREAKPOINT and PC is in the set, and the check writes
nothing else and nothing in any other case. -/
def Obligations.PreFetchCheckReEnables : Prop :=
  ∀ s : State,
    (s.dbg = .waitingForBreakpoint → (∃ b ∈ s.bp, b.val = uint s.pc) → preFetchCheck s = { s with dbg := .enabled }) ∧
    (s.dbg = .waitingForBreakpoint → (∀ b ∈ s.bp, b.val ≠ uint s.pc) → preFetchCheck s = s) ∧
    (s.dbg ≠ .waitingForBreakpoint → preFetchCheck s = s)

/-- R225, R228: the commands that do not resume the core, given while it is held: the breakpoint set is changed as a set, listing and
memory inspection and a rejected command change nothing, and the core stays held with all its state unchanged; the
command is taken off the list (log 3). -/
def Obligations.NonResumingCommandsKeepTheHold : Prop :=
  ∀ (s : State) (c : HostCommand) (rest : List HostCommand), s.run = .running → s.held = true →
    s.commands = c :: rest → c ∉ [HostCommand.next, .nextBreakpoint, .finish, .quit] →
    ∃ b : Breakpoints, step s = .next { s with commands := rest, bp := b } ∧
      (∀ x, x ∈ b ↔ (x ∈ s.bp ∧ c ≠ .deleteBreakpoint x) ∨ c = .addBreakpoint x) ∧
      (s.bp.wf = true → b.wf = true) ∧
      ((∀ a, c ≠ .addBreakpoint a ∧ c ≠ .deleteBreakpoint a) → b = s.bp)

/-- R227: quit halts the core at the pause point with the reason QUIT: the fetch's IR and PC stand, no operand is resolved, no cell
is read or written, and the cycle is not complete. Leaving `held` on the halt is the model's choice (log 7). -/
def Obligations.QuitHaltsAtThePausePoint : Prop :=
  ∀ (s : State) (rest : List HostCommand), s.run = .running → s.held = true → s.commands = .quit :: rest →
    step s = .next { s with commands := rest, run := .halted, haltReason := .quit, held := false } ∧
    completesCycle s = false

/-- R231: a held core whose host gives no command has no next state and no end state: stuck (log 3). -/
def Obligations.UnansweredHoldIsStuck : Prop :=
  ∀ s : State, s.run = .running → s.held = true → s.commands = [] → step s = .fault .holdUnanswered

/-- R222: under a DISABLED host no run of any length is ever held, and DBG, the breakpoints and the commands stay as they are. -/
def Obligations.DisabledHostNeverHolds : Prop :=
  ∀ (k : Nat) (s t : State), s.dbg = .disabled → s.held = false → runSteps k s = .next t →
    t.dbg = .disabled ∧ t.held = false ∧ t.bp = s.bp ∧ t.commands = s.commands

/-- R233: the host does not change what the core computes: a run under any host, breakpoints and commands, that ends between
cycles and was not quit, is a run of the machine without a host, cycle for cycle. -/
def Obligations.HostDoesNotChangeTheComputation : Prop :=
  ∀ (k : Nat) (s t : State), s.held = false → runSteps k s = .next t → t.held = false → t.haltReason ≠ .quit →
    runSteps (countSteps endsCycle k s) s.hostless = .next t.hostless

/-- R229: after a complete cycle under a host that is not DISABLED the host observes PC and AC, and after a STORE's write the address
and the value; under a DISABLED host it observes neither. Observing changes no state: `observe` is a function of the state. -/
def Obligations.CompleteCyclesAreEchoed : Prop :=
  ∀ s t : State, step s = .next t → completesCycle s = true →
    (t.dbg ≠ .disabled → Observation.cycleEcho t.pc t.ac ∈ observe s) ∧
    (t.dbg ≠ .disabled → ∀ (u : State) (o : Operand), toPausePoint s = .passes u → decode u.ir = .ok (.store o) →
      Observation.storeEcho t.op t.ac ∈ observe s) ∧
    (t.dbg = .disabled → ∀ x y, Observation.cycleEcho x y ∉ observe s ∧ Observation.storeEcho x y ∉ observe s)

/-- R249: without a hold every step is a cycle, so the count of complete cycles of `k` steps is `k`, less the faulted one if the run
ended in a fault (D18). -/
def Obligations.CycleCountCountsCompleteCycles : Prop :=
  ∀ (k : Nat) (s t : State), s.run = .running → s.dbg = .disabled → s.held = false → runSteps k s = .next t →
    (t.run ≠ .faulted → cycleCount k s = k) ∧ (t.run = .faulted → cycleCount k s + 1 = k)

/-! ## Reset and the invariant -/

/-- R43, R241, R242: the values of the registers and status fields after construction (D12, D14, D19), for every image, interactive
flag and host; BP is empty and DBG is ENABLED exactly when the flag is true (R221). -/
def Obligations.ConstructionGivesResetValues : Prop :=
  ∀ (image : Memory) (interactive : Bool) (commands : List HostCommand),
    let s := State.construct image interactive commands
    s.pc = 0x0000#16 ∧ s.ac = 0x0000#16 ∧ s.ir = 0x0000#16 ∧ s.op = 0x0000#16 ∧ s.run = .running ∧
    s.haltReason = .none ∧ s.faultCause = .none ∧ s.faultAddr = 0x0000#16 ∧ s.mem = image ∧ s.bp = [] ∧
    (s.dbg = .enabled ↔ interactive = true) ∧ (s.dbg = .disabled ↔ interactive = false)

/-- The invariant holds after construction from any canonical image, and of the reset state, which is construction from the
image that lists nothing with no host (log 2, log 3, log 4). -/
def Obligations.InvariantHoldsAtReset : Prop :=
  (∀ (image : Memory) (interactive : Bool) (commands : List HostCommand), image.wf = true →
    (State.construct image interactive commands).Inv) ∧
  State.reset = State.construct [] false [] ∧ State.reset.Inv

/-- Every step keeps the invariant: memory and breakpoints stay canonical, RUN, HALT_REASON, FAULT_CAUSE and FAULT_ADDR agree as R39 and
R200 say, and a held core is running under an ENABLED host one past the cell of the instruction in IR. -/
def Obligations.StepKeepsInvariant : Prop :=
  ∀ s t : State, s.Inv → step s = .next t → t.Inv
end

