-- ==== Sys2Proof/Laws/State.lean ====
section
/-! SUPPORT. One lemma for each field of each update of the state, so that no proof unfolds an update. -/

namespace Sys2Proof.Machine

@[simp] theorem State.setAc_ac (v : Word) (s : State) : (s.setAc v).ac = v := rfl
@[simp] theorem State.setAc_pc (v : Word) (s : State) : (s.setAc v).pc = s.pc := rfl
@[simp] theorem State.setAc_ir (v : Word) (s : State) : (s.setAc v).ir = s.ir := rfl
@[simp] theorem State.setAc_op (v : Word) (s : State) : (s.setAc v).op = s.op := rfl
@[simp] theorem State.setAc_run (v : Word) (s : State) : (s.setAc v).run = s.run := rfl
@[simp] theorem State.setAc_haltReason (v : Word) (s : State) : (s.setAc v).haltReason = s.haltReason := rfl
@[simp] theorem State.setAc_faultCause (v : Word) (s : State) : (s.setAc v).faultCause = s.faultCause := rfl
@[simp] theorem State.setAc_faultAddr (v : Word) (s : State) : (s.setAc v).faultAddr = s.faultAddr := rfl
@[simp] theorem State.setAc_mem (v : Word) (s : State) : (s.setAc v).mem = s.mem := rfl
@[simp] theorem State.setAc_held (v : Word) (s : State) : (s.setAc v).held = s.held := rfl
@[simp] theorem State.setAc_dbg (v : Word) (s : State) : (s.setAc v).dbg = s.dbg := rfl
@[simp] theorem State.setAc_bp (v : Word) (s : State) : (s.setAc v).bp = s.bp := rfl
@[simp] theorem State.setAc_commands (v : Word) (s : State) : (s.setAc v).commands = s.commands := rfl
@[simp] theorem State.setAc_wordAt (v : Word) (s : State) (n : Nat) : (s.setAc v).wordAt n = s.wordAt n := rfl

@[simp] theorem State.setPc_ac (v : Word) (s : State) : (s.setPc v).ac = s.ac := rfl
@[simp] theorem State.setPc_pc (v : Word) (s : State) : (s.setPc v).pc = v := rfl
@[simp] theorem State.setPc_ir (v : Word) (s : State) : (s.setPc v).ir = s.ir := rfl
@[simp] theorem State.setPc_op (v : Word) (s : State) : (s.setPc v).op = s.op := rfl
@[simp] theorem State.setPc_run (v : Word) (s : State) : (s.setPc v).run = s.run := rfl
@[simp] theorem State.setPc_haltReason (v : Word) (s : State) : (s.setPc v).haltReason = s.haltReason := rfl
@[simp] theorem State.setPc_faultCause (v : Word) (s : State) : (s.setPc v).faultCause = s.faultCause := rfl
@[simp] theorem State.setPc_faultAddr (v : Word) (s : State) : (s.setPc v).faultAddr = s.faultAddr := rfl
@[simp] theorem State.setPc_mem (v : Word) (s : State) : (s.setPc v).mem = s.mem := rfl
@[simp] theorem State.setPc_held (v : Word) (s : State) : (s.setPc v).held = s.held := rfl
@[simp] theorem State.setPc_dbg (v : Word) (s : State) : (s.setPc v).dbg = s.dbg := rfl
@[simp] theorem State.setPc_bp (v : Word) (s : State) : (s.setPc v).bp = s.bp := rfl
@[simp] theorem State.setPc_commands (v : Word) (s : State) : (s.setPc v).commands = s.commands := rfl
@[simp] theorem State.setPc_wordAt (v : Word) (s : State) (n : Nat) : (s.setPc v).wordAt n = s.wordAt n := rfl

@[simp] theorem State.setOp_ac (v : Word) (s : State) : (s.setOp v).ac = s.ac := rfl
@[simp] theorem State.setOp_pc (v : Word) (s : State) : (s.setOp v).pc = s.pc := rfl
@[simp] theorem State.setOp_ir (v : Word) (s : State) : (s.setOp v).ir = s.ir := rfl
@[simp] theorem State.setOp_op (v : Word) (s : State) : (s.setOp v).op = v := rfl
@[simp] theorem State.setOp_run (v : Word) (s : State) : (s.setOp v).run = s.run := rfl
@[simp] theorem State.setOp_haltReason (v : Word) (s : State) : (s.setOp v).haltReason = s.haltReason := rfl
@[simp] theorem State.setOp_faultCause (v : Word) (s : State) : (s.setOp v).faultCause = s.faultCause := rfl
@[simp] theorem State.setOp_faultAddr (v : Word) (s : State) : (s.setOp v).faultAddr = s.faultAddr := rfl
@[simp] theorem State.setOp_mem (v : Word) (s : State) : (s.setOp v).mem = s.mem := rfl
@[simp] theorem State.setOp_held (v : Word) (s : State) : (s.setOp v).held = s.held := rfl
@[simp] theorem State.setOp_dbg (v : Word) (s : State) : (s.setOp v).dbg = s.dbg := rfl
@[simp] theorem State.setOp_bp (v : Word) (s : State) : (s.setOp v).bp = s.bp := rfl
@[simp] theorem State.setOp_commands (v : Word) (s : State) : (s.setOp v).commands = s.commands := rfl
@[simp] theorem State.setOp_wordAt (v : Word) (s : State) (n : Nat) : (s.setOp v).wordAt n = s.wordAt n := rfl

@[simp] theorem State.latch_ac (w : Word) (s : State) : (s.latch w).ac = s.ac := rfl
@[simp] theorem State.latch_pc (w : Word) (s : State) : (s.latch w).pc = w16 (uint s.pc + 1) := rfl
@[simp] theorem State.latch_ir (w : Word) (s : State) : (s.latch w).ir = w := rfl
@[simp] theorem State.latch_op (w : Word) (s : State) : (s.latch w).op = s.op := rfl
@[simp] theorem State.latch_run (w : Word) (s : State) : (s.latch w).run = s.run := rfl
@[simp] theorem State.latch_haltReason (w : Word) (s : State) : (s.latch w).haltReason = s.haltReason := rfl
@[simp] theorem State.latch_faultCause (w : Word) (s : State) : (s.latch w).faultCause = s.faultCause := rfl
@[simp] theorem State.latch_faultAddr (w : Word) (s : State) : (s.latch w).faultAddr = s.faultAddr := rfl
@[simp] theorem State.latch_mem (w : Word) (s : State) : (s.latch w).mem = s.mem := rfl
@[simp] theorem State.latch_held (w : Word) (s : State) : (s.latch w).held = s.held := rfl
@[simp] theorem State.latch_dbg (w : Word) (s : State) : (s.latch w).dbg = s.dbg := rfl
@[simp] theorem State.latch_bp (w : Word) (s : State) : (s.latch w).bp = s.bp := rfl
@[simp] theorem State.latch_commands (w : Word) (s : State) : (s.latch w).commands = s.commands := rfl
@[simp] theorem State.latch_wordAt (w : Word) (s : State) (n : Nat) : (s.latch w).wordAt n = s.wordAt n := rfl

@[simp] theorem State.raise_ac (c : FaultCause) (a : Word) (s : State) : (s.raise c a).ac = s.ac := rfl
@[simp] theorem State.raise_pc (c : FaultCause) (a : Word) (s : State) : (s.raise c a).pc = s.pc := rfl
@[simp] theorem State.raise_ir (c : FaultCause) (a : Word) (s : State) : (s.raise c a).ir = s.ir := rfl
@[simp] theorem State.raise_op (c : FaultCause) (a : Word) (s : State) : (s.raise c a).op = s.op := rfl
@[simp] theorem State.raise_run (c : FaultCause) (a : Word) (s : State) : (s.raise c a).run = .faulted := rfl
@[simp] theorem State.raise_haltReason (c : FaultCause) (a : Word) (s : State) : (s.raise c a).haltReason = s.haltReason := rfl
@[simp] theorem State.raise_faultCause (c : FaultCause) (a : Word) (s : State) : (s.raise c a).faultCause = c := rfl
@[simp] theorem State.raise_faultAddr (c : FaultCause) (a : Word) (s : State) : (s.raise c a).faultAddr = a := rfl
@[simp] theorem State.raise_mem (c : FaultCause) (a : Word) (s : State) : (s.raise c a).mem = s.mem := rfl
@[simp] theorem State.raise_held (c : FaultCause) (a : Word) (s : State) : (s.raise c a).held = s.held := rfl
@[simp] theorem State.raise_dbg (c : FaultCause) (a : Word) (s : State) : (s.raise c a).dbg = s.dbg := rfl
@[simp] theorem State.raise_bp (c : FaultCause) (a : Word) (s : State) : (s.raise c a).bp = s.bp := rfl
@[simp] theorem State.raise_commands (c : FaultCause) (a : Word) (s : State) : (s.raise c a).commands = s.commands := rfl
@[simp] theorem State.raise_wordAt (c : FaultCause) (a : Word) (s : State) (n : Nat) : (s.raise c a).wordAt n = s.wordAt n := rfl

@[simp] theorem State.halt_ac (r : HaltReason) (s : State) : (s.halt r).ac = s.ac := rfl
@[simp] theorem State.halt_pc (r : HaltReason) (s : State) : (s.halt r).pc = s.pc := rfl
@[simp] theorem State.halt_ir (r : HaltReason) (s : State) : (s.halt r).ir = s.ir := rfl
@[simp] theorem State.halt_op (r : HaltReason) (s : State) : (s.halt r).op = s.op := rfl
@[simp] theorem State.halt_run (r : HaltReason) (s : State) : (s.halt r).run = .halted := rfl
@[simp] theorem State.halt_haltReason (r : HaltReason) (s : State) : (s.halt r).haltReason = r := rfl
@[simp] theorem State.halt_faultCause (r : HaltReason) (s : State) : (s.halt r).faultCause = s.faultCause := rfl
@[simp] theorem State.halt_faultAddr (r : HaltReason) (s : State) : (s.halt r).faultAddr = s.faultAddr := rfl
@[simp] theorem State.halt_mem (r : HaltReason) (s : State) : (s.halt r).mem = s.mem := rfl
@[simp] theorem State.halt_held (r : HaltReason) (s : State) : (s.halt r).held = s.held := rfl
@[simp] theorem State.halt_dbg (r : HaltReason) (s : State) : (s.halt r).dbg = s.dbg := rfl
@[simp] theorem State.halt_bp (r : HaltReason) (s : State) : (s.halt r).bp = s.bp := rfl
@[simp] theorem State.halt_commands (r : HaltReason) (s : State) : (s.halt r).commands = s.commands := rfl
@[simp] theorem State.halt_wordAt (r : HaltReason) (s : State) (n : Nat) : (s.halt r).wordAt n = s.wordAt n := rfl

@[simp] theorem State.setHeld_ac (b : Bool) (s : State) : (s.setHeld b).ac = s.ac := rfl
@[simp] theorem State.setHeld_pc (b : Bool) (s : State) : (s.setHeld b).pc = s.pc := rfl
@[simp] theorem State.setHeld_ir (b : Bool) (s : State) : (s.setHeld b).ir = s.ir := rfl
@[simp] theorem State.setHeld_op (b : Bool) (s : State) : (s.setHeld b).op = s.op := rfl
@[simp] theorem State.setHeld_run (b : Bool) (s : State) : (s.setHeld b).run = s.run := rfl
@[simp] theorem State.setHeld_haltReason (b : Bool) (s : State) : (s.setHeld b).haltReason = s.haltReason := rfl
@[simp] theorem State.setHeld_faultCause (b : Bool) (s : State) : (s.setHeld b).faultCause = s.faultCause := rfl
@[simp] theorem State.setHeld_faultAddr (b : Bool) (s : State) : (s.setHeld b).faultAddr = s.faultAddr := rfl
@[simp] theorem State.setHeld_mem (b : Bool) (s : State) : (s.setHeld b).mem = s.mem := rfl
@[simp] theorem State.setHeld_held (b : Bool) (s : State) : (s.setHeld b).held = b := rfl
@[simp] theorem State.setHeld_dbg (b : Bool) (s : State) : (s.setHeld b).dbg = s.dbg := rfl
@[simp] theorem State.setHeld_bp (b : Bool) (s : State) : (s.setHeld b).bp = s.bp := rfl
@[simp] theorem State.setHeld_commands (b : Bool) (s : State) : (s.setHeld b).commands = s.commands := rfl
@[simp] theorem State.setHeld_wordAt (b : Bool) (s : State) (n : Nat) : (s.setHeld b).wordAt n = s.wordAt n := rfl

@[simp] theorem State.setDbg_ac (d : DbgState) (s : State) : (s.setDbg d).ac = s.ac := rfl
@[simp] theorem State.setDbg_pc (d : DbgState) (s : State) : (s.setDbg d).pc = s.pc := rfl
@[simp] theorem State.setDbg_ir (d : DbgState) (s : State) : (s.setDbg d).ir = s.ir := rfl
@[simp] theorem State.setDbg_op (d : DbgState) (s : State) : (s.setDbg d).op = s.op := rfl
@[simp] theorem State.setDbg_run (d : DbgState) (s : State) : (s.setDbg d).run = s.run := rfl
@[simp] theorem State.setDbg_haltReason (d : DbgState) (s : State) : (s.setDbg d).haltReason = s.haltReason := rfl
@[simp] theorem State.setDbg_faultCause (d : DbgState) (s : State) : (s.setDbg d).faultCause = s.faultCause := rfl
@[simp] theorem State.setDbg_faultAddr (d : DbgState) (s : State) : (s.setDbg d).faultAddr = s.faultAddr := rfl
@[simp] theorem State.setDbg_mem (d : DbgState) (s : State) : (s.setDbg d).mem = s.mem := rfl
@[simp] theorem State.setDbg_held (d : DbgState) (s : State) : (s.setDbg d).held = s.held := rfl
@[simp] theorem State.setDbg_dbg (d : DbgState) (s : State) : (s.setDbg d).dbg = d := rfl
@[simp] theorem State.setDbg_bp (d : DbgState) (s : State) : (s.setDbg d).bp = s.bp := rfl
@[simp] theorem State.setDbg_commands (d : DbgState) (s : State) : (s.setDbg d).commands = s.commands := rfl
@[simp] theorem State.setDbg_wordAt (d : DbgState) (s : State) (n : Nat) : (s.setDbg d).wordAt n = s.wordAt n := rfl

@[simp] theorem State.setBp_ac (b : Breakpoints) (s : State) : (s.setBp b).ac = s.ac := rfl
@[simp] theorem State.setBp_pc (b : Breakpoints) (s : State) : (s.setBp b).pc = s.pc := rfl
@[simp] theorem State.setBp_ir (b : Breakpoints) (s : State) : (s.setBp b).ir = s.ir := rfl
@[simp] theorem State.setBp_op (b : Breakpoints) (s : State) : (s.setBp b).op = s.op := rfl
@[simp] theorem State.setBp_run (b : Breakpoints) (s : State) : (s.setBp b).run = s.run := rfl
@[simp] theorem State.setBp_haltReason (b : Breakpoints) (s : State) : (s.setBp b).haltReason = s.haltReason := rfl
@[simp] theorem State.setBp_faultCause (b : Breakpoints) (s : State) : (s.setBp b).faultCause = s.faultCause := rfl
@[simp] theorem State.setBp_faultAddr (b : Breakpoints) (s : State) : (s.setBp b).faultAddr = s.faultAddr := rfl
@[simp] theorem State.setBp_mem (b : Breakpoints) (s : State) : (s.setBp b).mem = s.mem := rfl
@[simp] theorem State.setBp_held (b : Breakpoints) (s : State) : (s.setBp b).held = s.held := rfl
@[simp] theorem State.setBp_dbg (b : Breakpoints) (s : State) : (s.setBp b).dbg = s.dbg := rfl
@[simp] theorem State.setBp_bp (b : Breakpoints) (s : State) : (s.setBp b).bp = b := rfl
@[simp] theorem State.setBp_commands (b : Breakpoints) (s : State) : (s.setBp b).commands = s.commands := rfl
@[simp] theorem State.setBp_wordAt (b : Breakpoints) (s : State) (n : Nat) : (s.setBp b).wordAt n = s.wordAt n := rfl

@[simp] theorem State.setCommands_ac (c : List HostCommand) (s : State) : (s.setCommands c).ac = s.ac := rfl
@[simp] theorem State.setCommands_pc (c : List HostCommand) (s : State) : (s.setCommands c).pc = s.pc := rfl
@[simp] theorem State.setCommands_ir (c : List HostCommand) (s : State) : (s.setCommands c).ir = s.ir := rfl
@[simp] theorem State.setCommands_op (c : List HostCommand) (s : State) : (s.setCommands c).op = s.op := rfl
@[simp] theorem State.setCommands_run (c : List HostCommand) (s : State) : (s.setCommands c).run = s.run := rfl
@[simp] theorem State.setCommands_haltReason (c : List HostCommand) (s : State) : (s.setCommands c).haltReason = s.haltReason := rfl
@[simp] theorem State.setCommands_faultCause (c : List HostCommand) (s : State) : (s.setCommands c).faultCause = s.faultCause := rfl
@[simp] theorem State.setCommands_faultAddr (c : List HostCommand) (s : State) : (s.setCommands c).faultAddr = s.faultAddr := rfl
@[simp] theorem State.setCommands_mem (c : List HostCommand) (s : State) : (s.setCommands c).mem = s.mem := rfl
@[simp] theorem State.setCommands_held (c : List HostCommand) (s : State) : (s.setCommands c).held = s.held := rfl
@[simp] theorem State.setCommands_dbg (c : List HostCommand) (s : State) : (s.setCommands c).dbg = s.dbg := rfl
@[simp] theorem State.setCommands_bp (c : List HostCommand) (s : State) : (s.setCommands c).bp = s.bp := rfl
@[simp] theorem State.setCommands_commands (c : List HostCommand) (s : State) : (s.setCommands c).commands = c := rfl
@[simp] theorem State.setCommands_wordAt (c : List HostCommand) (s : State) (n : Nat) : (s.setCommands c).wordAt n = s.wordAt n := rfl

@[simp] theorem State.hostless_ac (s : State) : s.hostless.ac = s.ac := rfl
@[simp] theorem State.hostless_pc (s : State) : s.hostless.pc = s.pc := rfl
@[simp] theorem State.hostless_ir (s : State) : s.hostless.ir = s.ir := rfl
@[simp] theorem State.hostless_op (s : State) : s.hostless.op = s.op := rfl
@[simp] theorem State.hostless_run (s : State) : s.hostless.run = s.run := rfl
@[simp] theorem State.hostless_mem (s : State) : s.hostless.mem = s.mem := rfl
@[simp] theorem State.hostless_held (s : State) : s.hostless.held = false := rfl
@[simp] theorem State.hostless_dbg (s : State) : s.hostless.dbg = .disabled := rfl
@[simp] theorem State.hostless_wordAt (s : State) (n : Nat) : s.hostless.wordAt n = s.wordAt n := rfl

end Sys2Proof.Machine
end

