-- ==== Sys2Proof/Laws/Memory.lean ====
section
/-! SUPPORT. The laws of memory and of the breakpoint set: canonical form is kept, a write is read back, other cells stay. -/

namespace Sys2Proof.Machine

/-! ## Memory -/

theorem Memory.wfFrom_mono {lo lo' : Nat} {m : Memory} (h : lo' ≤ lo) (hm : Memory.wfFrom lo m = true) :
    Memory.wfFrom lo' m = true := by
  cases m with
  | nil => rfl
  | cons c rest =>
    simp [Memory.wfFrom] at hm ⊢
    exact ⟨⟨⟨by omega, hm.1.1.2⟩, hm.1.2⟩, hm.2⟩

/-- A canonical memory lists nothing below its bound. -/
theorem Memory.read_below {lo a : Nat} {m : Memory} (hm : Memory.wfFrom lo m = true) (ha : a < lo) :
    Memory.read m a = Config.unlistedWord := by
  induction m generalizing lo with
  | nil => rfl
  | cons c rest ih =>
    obtain ⟨b, u⟩ := c
    simp [Memory.wfFrom] at hm
    rw [Memory.read, if_neg (by omega)]
    exact ih hm.2 (by omega)

/-- Other cells stay, whatever the form of the list. -/
theorem Memory.read_write_ne {a b : Nat} (m : Memory) (v : Word) (h : b ≠ a) :
    Memory.read (Memory.write m a v) b = Memory.read m b := by
  induction m with
  | nil => by_cases hv : v = Config.unlistedWord <;> simp [Memory.write, Memory.read, hv, h]
  | cons c rest ih =>
    obtain ⟨d, u⟩ := c
    rw [Memory.write]
    by_cases h1 : a < d
    · by_cases hv : v = Config.unlistedWord <;> simp [h1, hv, Memory.read, h]
    · by_cases h2 : a = d
      · subst h2
        by_cases hv : v = Config.unlistedWord <;> simp [hv, Memory.read, h]
      · simp [h1, h2, Memory.read, ih]

theorem Memory.read_write_eq_from {lo a : Nat} {m : Memory} (v : Word) (hm : Memory.wfFrom lo m = true) :
    Memory.read (Memory.write m a v) a = v := by
  induction m generalizing lo with
  | nil => by_cases hv : v = Config.unlistedWord <;> simp [Memory.write, Memory.read, hv]
  | cons c rest ih =>
    obtain ⟨d, u⟩ := c
    simp [Memory.wfFrom] at hm
    rw [Memory.write]
    by_cases h1 : a < d
    · by_cases hv : v = Config.unlistedWord
      · rw [if_pos h1, if_pos hv, Memory.read, if_neg (by omega), Memory.read_below hm.2 (by omega), hv]
      · simp [h1, hv, Memory.read]
    · by_cases h2 : a = d
      · subst h2
        by_cases hv : v = Config.unlistedWord
        · simp [hv, Memory.read_below hm.2]
        · simp [hv, Memory.read]
      · simp [h1, h2, Memory.read, ih hm.2]

/-- A write is read back (20_memory.md R73 (b)). -/
theorem Memory.read_write_eq {m : Memory} (a : Nat) (v : Word) (hm : m.wf = true) :
    Memory.read (Memory.write m a v) a = v := Memory.read_write_eq_from v hm

theorem Memory.write_wfFrom {lo a : Nat} {m : Memory} (v : Word) (hm : Memory.wfFrom lo m = true) (hlo : lo ≤ a)
    (ha : a < Config.memWords) : Memory.wfFrom lo (Memory.write m a v) = true := by
  induction m generalizing lo with
  | nil => by_cases hv : v = Config.unlistedWord <;> simp [Memory.write, Memory.wfFrom, hv, hlo, ha]
  | cons c rest ih =>
    obtain ⟨d, u⟩ := c
    simp [Memory.wfFrom] at hm
    obtain ⟨⟨⟨h1, h2⟩, h3⟩, h4⟩ := hm
    rw [Memory.write]
    by_cases hlt : a < d
    · by_cases hv : v = Config.unlistedWord
      · simp [hlt, hv, Memory.wfFrom, h1, h2, h3, h4]
      · simp [hlt, hv, Memory.wfFrom, hlo, ha, h2, h3, h4]
    · by_cases heq : a = d
      · subst heq
        by_cases hv : v = Config.unlistedWord
        · simpa [hv] using Memory.wfFrom_mono (by omega) h4
        · simp [hv, Memory.wfFrom, hlo, ha, h4]
      · simp [hlt, heq, Memory.wfFrom, h1, h2, h3, ih h4 (by omega)]

/-- A write to a cell that exists keeps the canonical form. -/
theorem Memory.write_wf {m : Memory} {a : Nat} (v : Word) (hm : m.wf = true) (ha : a < Config.memWords) :
    (Memory.write m a v).wf = true := Memory.write_wfFrom v hm (Nat.zero_le a) ha

/-- In canonical form equal contents are equal lists. -/
theorem Memory.ext_of_wfFrom {lo : Nat} {m m' : Memory} (hm : Memory.wfFrom lo m = true) (hm' : Memory.wfFrom lo m' = true)
    (h : ∀ a, Memory.read m a = Memory.read m' a) : m = m' := by
  induction m generalizing lo m' with
  | nil =>
    cases m' with
    | nil => rfl
    | cons c rest =>
      have := h c.1
      simp [Memory.wfFrom, Memory.read] at hm' this
      exact absurd this.symm hm'.1.2
  | cons c rest ih =>
    obtain ⟨a, u⟩ := c
    cases m' with
    | nil =>
      have := h a
      simp [Memory.wfFrom, Memory.read] at hm this
      exact absurd this hm.1.2
    | cons c' rest' =>
      obtain ⟨b, w⟩ := c'
      simp [Memory.wfFrom] at hm hm'
      have hab : a = b := by
        rcases Nat.lt_trichotomy a b with hlt | heq | hlt
        · have := h a
          rw [Memory.read, if_pos rfl, Memory.read, if_neg (by omega), Memory.read_below hm'.2 (by omega)] at this
          exact absurd this hm.1.2
        · exact heq
        · have := h b
          rw [Memory.read, if_neg (by omega), Memory.read_below hm.2 (by omega), Memory.read, if_pos rfl] at this
          exact absurd this.symm hm'.1.2
      subst hab
      have huw : u = w := by have := h a; simpa [Memory.read] using this
      subst huw
      rw [ih hm.2 hm'.2 fun n => ?_]
      by_cases hn : n = a
      · subst hn
        rw [Memory.read_below hm.2 (by omega), Memory.read_below hm'.2 (by omega)]
      · simpa [Memory.read, hn] using h n

theorem Memory.ext_of_wf {m m' : Memory} (hm : m.wf = true) (hm' : m'.wf = true)
    (h : ∀ a, Memory.read m a = Memory.read m' a) : m = m' := Memory.ext_of_wfFrom hm hm' h

/-! ## The breakpoint set -/

theorem Breakpoints.wfFrom_mono {lo lo' : Nat} {l : Breakpoints} (h : lo' ≤ lo) (hl : Breakpoints.wfFrom lo l = true) :
    Breakpoints.wfFrom lo' l = true := by
  cases l with
  | nil => rfl
  | cons b rest => simp [Breakpoints.wfFrom] at hl ⊢; exact ⟨by omega, hl.2⟩

theorem Breakpoints.insert_wfFrom {lo : Nat} {a : Fin 512} {l : Breakpoints} (hl : Breakpoints.wfFrom lo l = true)
    (ha : lo ≤ a.val) : Breakpoints.wfFrom lo (Breakpoints.insert a l) = true := by
  induction l generalizing lo with
  | nil => simpa [Breakpoints.insert, Breakpoints.wfFrom] using ha
  | cons b rest ih =>
    simp [Breakpoints.wfFrom] at hl
    rw [Breakpoints.insert]
    by_cases h1 : a < b
    · simp [h1, Breakpoints.wfFrom, ha, hl.2]
    · by_cases h2 : a = b
      · simp [h2, Breakpoints.wfFrom, hl.1, hl.2]
      · simp [h1, h2, Breakpoints.wfFrom, hl.1]
        exact ih hl.2 (by omega)

theorem Breakpoints.insert_wf {a : Fin 512} {l : Breakpoints} (hl : l.wf = true) : (l.insert a).wf = true :=
  Breakpoints.insert_wfFrom hl (Nat.zero_le _)

theorem Breakpoints.erase_wfFrom {lo : Nat} {a : Fin 512} {l : Breakpoints} (hl : Breakpoints.wfFrom lo l = true) :
    Breakpoints.wfFrom lo (Breakpoints.erase a l) = true := by
  induction l generalizing lo with
  | nil => rfl
  | cons b rest ih =>
    simp [Breakpoints.wfFrom] at hl
    rw [Breakpoints.erase]
    by_cases h : a = b
    · simp [h] at ih ⊢
      exact Breakpoints.wfFrom_mono (by omega) (ih hl.2)
    · simp [h, Breakpoints.wfFrom, hl.1, ih hl.2]

theorem Breakpoints.erase_wf {a : Fin 512} {l : Breakpoints} (hl : l.wf = true) : (l.erase a).wf = true :=
  Breakpoints.erase_wfFrom hl

/-- `BP ∪ {a}` (60_exceptions.md R225). -/
theorem Breakpoints.mem_insert (a b : Fin 512) (l : Breakpoints) : b ∈ l.insert a ↔ b = a ∨ b ∈ l := by
  induction l with
  | nil => simp [Breakpoints.insert]
  | cons c rest ih =>
    rw [Breakpoints.insert]
    by_cases h1 : a < c
    · simp [h1]
    · by_cases h2 : a = c
      · simp [h2]
      · simp [h1, h2, ih]; tauto

/-- `BP \ {a}` (60_exceptions.md R225). -/
theorem Breakpoints.mem_erase (a b : Fin 512) (l : Breakpoints) : b ∈ l.erase a ↔ b ≠ a ∧ b ∈ l := by
  induction l with
  | nil => simp [Breakpoints.erase]
  | cons c rest ih =>
    rw [Breakpoints.erase]
    by_cases h : a = c
    · subst h
      simp only [if_true, ih, List.mem_cons]
      tauto
    · simp [h, ih]
      constructor
      · rintro (rfl | h')
        · exact ⟨fun e => h e.symm, .inl rfl⟩
        · exact ⟨h'.1, .inr h'.2⟩
      · rintro ⟨h1, h2 | h2⟩
        · exact .inl h2
        · exact .inr ⟨h1, h2⟩

/-- Membership of PC in the set (60_exceptions.md R223). -/
theorem Breakpoints.has_iff (l : Breakpoints) (pc : Word) : l.has pc = true ↔ ∃ b ∈ l, uint pc = b.val := by
  induction l with
  | nil => simp [Breakpoints.has]
  | cons c rest ih => simp [Breakpoints.has, ih]

end Sys2Proof.Machine
end

