-- ==== Sys2Proof/Laws/Decode.lean ====
section
/-! SUPPORT. The fields of a word as arithmetic on its number, and when a word decodes (30_encoding.md R93 to R98). -/

namespace Sys2Proof

theorem opcodeField_eq (w : Word) : opcodeField w = uint w / 2048 % 16 := by
  simp [opcodeField, BitVec.extractLsb_toNat, Nat.shiftRight_eq_div_pow]

theorem magField_eq (w : Word) : magField w = uint w % 512 := by
  simp [magField, BitVec.extractLsb_toNat]

theorem modeField_eq (w : Word) : modeField w = modeOfCode (uint w / 512 % 4) := by
  simp [modeField, BitVec.extractLsb_toNat, Nat.shiftRight_eq_div_pow]

theorem signField_eq (w : Word) : signField w = if 32768 ≤ uint w then .minus else .plus := by
  have h : w.getLsbD 15 = decide (32768 ≤ uint w) := by
    simpa [BitVec.msb, BitVec.getMsbD] using BitVec.msb_eq_decide w
  rw [signField, h]
  simp

theorem magField_lt (w : Word) : magField w < Config.magnitudes := by
  rw [magField_eq]; exact Nat.mod_lt _ (by decide)

theorem opcodeField_lt (w : Word) : opcodeField w < 16 := by
  rw [opcodeField_eq]; exact Nat.mod_lt _ (by decide)

@[simp] theorem operandField_wellFormed (w : Word) : (operandField w).wellFormed = true := by
  exact decide_eq_true (magField_lt w)

theorem modeOfCode_code (m : Mode) : modeOfCode m.code = m := by cases m <;> rfl

theorem Mode.code_lt (m : Mode) : m.code < 4 := by cases m <;> decide

theorem Instr.opcode_lt (i : Instr) : i.opcode < 15 := by cases i <;> simp [Instr.opcode]

/-- The code and the operand fields make the instruction. -/
theorem instrOfOpcode_opcode (i : Instr) : instrOfOpcode i.opcode i.operand = some i := by cases i <;> rfl

/-- What the code table answers: an instruction of that code and operand (R96), or none for 15 and above (R97). -/
theorem instrOfOpcode_cases (code : Nat) (o : Operand) :
    (∃ i, instrOfOpcode code o = some i ∧ i.opcode = code ∧ i.operand = o ∧ code < 15) ∨
    (instrOfOpcode code o = none ∧ 15 ≤ code) := by
  unfold instrOfOpcode
  split
  case h_16 =>
    refine .inr ⟨rfl, ?_⟩
    by_contra hlt
    have : code < 15 := by omega
    interval_cases code <;> simp_all
  all_goals exact .inl ⟨_, rfl, rfl, rfl, by decide⟩

/-- What a word that decodes is: its fields are the instruction's. -/
theorem decode_ok {w : Word} {i : Instr} (h : decode w = .ok i) :
    i.opcode = opcodeField w ∧ i.operand = operandField w ∧ opcodeField w < 15 := by
  unfold decode at h
  rcases instrOfOpcode_cases (opcodeField w) (operandField w) with ⟨j, hj, h1, h2, h3⟩ | ⟨hn, _⟩
  · rw [hj] at h
    cases h
    exact ⟨h1, h2, h3⟩
  · rw [hn] at h; cases h

theorem decode_wellFormed {w : Word} {i : Instr} (h : decode w = .ok i) : i.wellFormed = true := by
  rw [Instr.wellFormed, (decode_ok h).2.1, operandField_wellFormed]

/-- Whether a word decodes is decided by its opcode field alone (R98). -/
theorem decode_isOk (w : Word) :
    (∃ i, decode w = .ok i ∧ opcodeField w < 15) ∨ (decode w = .error .illegalOpcode ∧ opcodeField w = 15) := by
  rcases instrOfOpcode_cases (opcodeField w) (operandField w) with ⟨j, hj, _, _, h⟩ | ⟨hn, h⟩
  · exact .inl ⟨j, by simp [decode, hj], h⟩
  · exact .inr ⟨by simp [decode, hn], by have := opcodeField_lt w; omega⟩

/-- The number of an encoded word, when the fields fit (R95). -/
theorem uint_encodeFields {s o m a : Nat} (hs : s < 2) (ho : o < 16) (hm : m < 4) (ha : a < 512) :
    uint (encodeFields s o m a) = s * 32768 + o * 2048 + m * 512 + a := by
  have h : ((s : Int) * 32768 + o * 2048 + m * 512 + a) = ((s * 32768 + o * 2048 + m * 512 + a : Nat) : Int) := by
    push_cast; ring
  simp only [encodeFields, w16, uint, h, BitVec.ofInt_natCast, BitVec.toNat_ofNat]
  omega

end Sys2Proof
end

