-- ==== Sys2Proof/Laws/Ops.lean ====
section
/-! SUPPORT. Once for each shared operation: everything it can do. -/

namespace Sys2Proof.Machine

/-! ## The memory port -/

theorem memRead_ok {a v : Word} {s : State} : memRead a s = .ok v ↔ uint a < 512 ∧ v = s.wordAt (uint a) := by
  unfold memRead inBounds
  by_cases h : uint a < Config.memWords
  · simp only [h, decide_true, if_true, Except.ok.injEq]
    exact ⟨fun e => ⟨h, e.symm⟩, fun e => e.2.symm⟩
  · simp only [h, decide_false]
    constructor
    · intro e; cases e
    · intro e; exact absurd e.1 h

theorem memRead_error {a b : Word} {s : State} : memRead a s = .error b ↔ 512 ≤ uint a ∧ b = a := by
  unfold memRead inBounds
  by_cases h : uint a < Config.memWords
  · simp only [h, decide_true, if_true]
    have h' : uint a < 512 := h
    constructor
    · intro e; cases e
    · intro e; omega
  · simp only [h, decide_false]
    have h' : ¬ uint a < 512 := h
    constructor
    · intro e; cases e; exact ⟨by omega, rfl⟩
    · intro e; simp [e.2]

theorem memWrite_ok {a v : Word} {s t : State} :
    memWrite a v s = .ok t ↔ uint a < 512 ∧ t = { s with mem := s.mem.write (uint a) v } := by
  unfold memWrite inBounds
  by_cases h : uint a < Config.memWords
  · simp only [h, decide_true, if_true, Except.ok.injEq]
    exact ⟨fun e => ⟨h, e.symm⟩, fun e => e.2.symm⟩
  · simp only [h, decide_false]
    constructor
    · intro e; cases e
    · intro e; exact absurd e.1 h

theorem memWrite_error {a b v : Word} {s : State} : memWrite a v s = .error b ↔ 512 ≤ uint a ∧ b = a := by
  unfold memWrite inBounds
  by_cases h : uint a < Config.memWords
  · simp only [h, decide_true, if_true]
    have h' : uint a < 512 := h
    constructor
    · intro e; cases e
    · intro e; omega
  · simp only [h, decide_false]
    have h' : ¬ uint a < 512 := h
    constructor
    · intro e; cases e; exact ⟨by omega, rfl⟩
    · intro e; simp [e.2]

/-! ## Operand resolution -/

/-- The two ways out of operand resolution (R125). -/
theorem withOperand_cases (o : Operand) (s : State) (rule : State → Result) :
    (∃ v, operandValue o s = .ok v ∧ withOperand o s rule = rule (s.setOp v)) ∨
    (∃ a, operandValue o s = .error a ∧ withOperand o s rule = .next (s.raise .operandOob a)) := by
  unfold withOperand
  cases operandValue o s with
  | ok v => exact .inl ⟨v, rfl, rfl⟩
  | error a => exact .inr ⟨a, rfl, rfl⟩

theorem withOperand_ok {o : Operand} {s : State} {v : Word} (rule : State → Result) (h : operandValue o s = .ok v) :
    withOperand o s rule = rule (s.setOp v) := by simp [withOperand, h]

theorem withOperand_error {o : Operand} {s : State} {a : Word} (rule : State → Result)
    (h : operandValue o s = .error a) : withOperand o s rule = .next (s.raise .operandOob a) := by
  simp [withOperand, h]

/-- Resolution reads the accumulator and memory only. -/
theorem operandValue_congr {s t : State} (o : Operand) (hac : s.ac = t.ac) (hmem : s.mem = t.mem) :
    operandValue o s = operandValue o t := by
  cases hm : o.mode <;>
    simp [operandValue, hm, resolveDot, resolveAt, resolveStar, resolvePlus, memRead, State.wordAt, hac, hmem]

/-- A fault of resolution is at an address that does not exist (R203). -/
theorem operandValue_error_oob {o : Operand} {s : State} {a : Word} (h : operandValue o s = .error a) : 512 ≤ uint a := by
  cases hm : o.mode with
  | dotMode => simp [operandValue, hm, resolveDot] at h
  | atMode =>
    simp only [operandValue, hm, resolveAt] at h
    obtain ⟨h1, rfl⟩ := memRead_error.1 h
    exact h1
  | starMode =>
    simp only [operandValue, hm, resolveStar] at h
    cases hp : memRead (w16 o.mag) s with
    | error b =>
      simp only [hp, Except.error.injEq] at h
      obtain ⟨h1, rfl⟩ := memRead_error.1 hp
      rwa [← h]
    | ok p =>
      simp only [hp] at h
      obtain ⟨h1, rfl⟩ := memRead_error.1 h
      exact h1
  | plusMode =>
    simp only [operandValue, hm, resolvePlus] at h
    obtain ⟨h1, rfl⟩ := memRead_error.1 h
    exact h1

/-! ## An integer presented as an address (20_memory.md R63) -/

theorem uint_w16_of_range {i : Int} (h0 : 0 ≤ i) (h1 : i ≤ 65535) : uint (w16 i) = i.toNat := by
  simp [uint, w16, BitVec.toNat_ofInt]
  omega

theorem uint_w16_of_neg {i : Int} (h0 : i < 0) (h1 : -65024 ≤ i) : 512 ≤ uint (w16 i) := by
  simp [uint, w16, BitVec.toNat_ofInt]
  omega

theorem sint_range (w : Word) : -32768 ≤ sint w ∧ sint w ≤ 32767 := by
  have h1 := BitVec.le_toInt w
  have h2 := BitVec.toInt_lt (x := w)
  simp at h1 h2
  simp only [sint]
  omega

theorem Operand.signedAddress_range {o : Operand} (h : o.wellFormed = true) :
    -511 ≤ o.signedAddress ∧ o.signedAddress ≤ 511 := by
  have hm : o.mag < 512 := of_decide_eq_true h
  cases hs : o.sign <;> simp only [Operand.signedAddress, hs] <;> omega

end Sys2Proof.Machine
end

