-- ==== Sys2Proof/Laws/PerInstr.lean ====
section
/-! SUPPORT. Statements about every instruction as syntax, one lemma a constructor. EncodedNumber: the number of an encoded
well-formed instruction is the sum of its shifted fields, so no field spills into another (30_encoding.md R95). -/

namespace Sys2Proof

theorem uint_encode {i : Instr} (h : i.wellFormed = true) :
    uint (encode i) =
      i.operand.sign.code * 32768 + i.opcode * 2048 + i.operand.mode.code * 512 + i.operand.mag := by
  refine uint_encodeFields ?_ ?_ ?_ ?_
  · cases i.operand.sign <;> decide
  · exact Nat.lt_succ_of_lt i.opcode_lt
  · exact i.operand.mode.code_lt
  · exact of_decide_eq_true h

def Laws.EncodedNumber.Statement (i : Instr) : Prop :=
  i.wellFormed = true →
    uint (encode i) =
      i.operand.sign.code * 32768 + i.opcode * 2048 + i.operand.mode.code * 512 + i.operand.mag

theorem Laws.EncodedNumber.null (o : Operand) : Laws.EncodedNumber.Statement (.null o) := uint_encode
theorem Laws.EncodedNumber.stop (o : Operand) : Laws.EncodedNumber.Statement (.stop o) := uint_encode
theorem Laws.EncodedNumber.load (o : Operand) : Laws.EncodedNumber.Statement (.load o) := uint_encode
theorem Laws.EncodedNumber.store (o : Operand) : Laws.EncodedNumber.Statement (.store o) := uint_encode
theorem Laws.EncodedNumber.jump (o : Operand) : Laws.EncodedNumber.Statement (.jump o) := uint_encode
theorem Laws.EncodedNumber.jneg (o : Operand) : Laws.EncodedNumber.Statement (.jneg o) := uint_encode
theorem Laws.EncodedNumber.jzero (o : Operand) : Laws.EncodedNumber.Statement (.jzero o) := uint_encode
theorem Laws.EncodedNumber.add (o : Operand) : Laws.EncodedNumber.Statement (.add o) := uint_encode
theorem Laws.EncodedNumber.sub (o : Operand) : Laws.EncodedNumber.Statement (.sub o) := uint_encode
theorem Laws.EncodedNumber.and (o : Operand) : Laws.EncodedNumber.Statement (.and o) := uint_encode
theorem Laws.EncodedNumber.or (o : Operand) : Laws.EncodedNumber.Statement (.or o) := uint_encode
theorem Laws.EncodedNumber.not (o : Operand) : Laws.EncodedNumber.Statement (.not o) := uint_encode
theorem Laws.EncodedNumber.xor (o : Operand) : Laws.EncodedNumber.Statement (.xor o) := uint_encode
theorem Laws.EncodedNumber.shl (o : Operand) : Laws.EncodedNumber.Statement (.shl o) := uint_encode
theorem Laws.EncodedNumber.shr (o : Operand) : Laws.EncodedNumber.Statement (.shr o) := uint_encode

end Sys2Proof
end

