-- ==== Sys2Proof/Laws/Exec.lean ====
section
/-! SUPPORT. What one meaning can do: exec always answers a next state; it faults on its operand, or it writes OP and then
what the opcode's rule writes. -/

namespace Sys2Proof.Machine

/-- The next states of an opcode's rule, from the state with OP written (40_cycle.md R132). -/
def OpcodeEffect (i : Instr) (s t : State) : Prop :=
  match i with
  | .null _  => t = s
  | .stop _  => t = s.halt .stop
  | .load _  => t = s.setAc s.op
  | .store _ =>
    (uint s.op < 512 ∧ t = { s with mem := s.mem.write (uint s.op) s.ac }) ∨
    (512 ≤ uint s.op ∧ t = s.raise .storeOob s.op)
  | .jump _  => t = s.setPc s.op
  | .jneg _  => (sint s.ac < 0 ∧ t = s.setPc s.op) ∨ (0 ≤ sint s.ac ∧ t = s)
  | .jzero _ => (s.ac = 0x0000#16 ∧ t = s.setPc s.op) ∨ (s.ac ≠ 0x0000#16 ∧ t = s)
  | .add _   => t = s.setAc (aluAdd s.ac s.op)
  | .sub _   => t = s.setAc (aluSub s.ac s.op)
  | .and _   => t = s.setAc (aluAnd s.ac s.op)
  | .or _    => t = s.setAc (aluOr s.ac s.op)
  | .not _   => t = s.setAc (aluNot s.ac s.op)
  | .xor _   => t = s.setAc (aluXor s.ac s.op)
  | .shl _   => t = s.setAc (aluShl s.ac s.op)
  | .shr _   => t = s.setAc (aluShr s.ac s.op)

theorem storeRule_cases (t : State) :
    ∃ u, (match memWrite t.op t.ac t with
          | .ok u    => (.next u : Result)
          | .error a => .next (t.raise .storeOob a)) = .next u ∧
      ((uint t.op < 512 ∧ u = { t with mem := t.mem.write (uint t.op) t.ac }) ∨
       (512 ≤ uint t.op ∧ u = t.raise .storeOob t.op)) := by
  cases h : memWrite t.op t.ac t with
  | ok u => exact ⟨u, rfl, .inl (memWrite_ok.1 h)⟩
  | error a =>
    obtain ⟨h1, rfl⟩ := memWrite_error.1 h
    exact ⟨_, rfl, .inr ⟨h1, rfl⟩⟩

theorem jumpRule_cases (c : Bool) (t : State) :
    (c = true ∧ (if c then t.setPc t.op else t) = t.setPc t.op) ∨ (c = false ∧ (if c then t.setPc t.op else t) = t) := by
  cases c <;> simp

/-- With a readable operand, exec answers a next state of the opcode's rule. -/
theorem exec_ok {i : Instr} {s : State} {v : Word} (h : operandValue i.operand s = .ok v) :
    ∃ t, exec i s = .next t ∧ OpcodeEffect i (s.setOp v) t := by
  cases i with
  | store o =>
    obtain ⟨u, h1, h2⟩ := storeRule_cases (s.setOp v)
    exact ⟨u, by rw [exec, execStore, withOperand_ok _ (show operandValue o s = .ok v from h)]; exact h1, h2⟩
  | jneg o =>
    refine ⟨_, by rw [exec, execJneg, jumpIf, withOperand_ok _ (show operandValue o s = .ok v from h)], ?_⟩
    rcases jumpRule_cases (acNegative (s.setOp v)) (s.setOp v) with ⟨h1, h2⟩ | ⟨h1, h2⟩
    · exact .inl ⟨of_decide_eq_true h1, h2⟩
    · exact .inr ⟨Int.not_lt.1 (of_decide_eq_false h1), h2⟩
  | jzero o =>
    refine ⟨_, by rw [exec, execJzero, jumpIf, withOperand_ok _ (show operandValue o s = .ok v from h)], ?_⟩
    rcases jumpRule_cases (acZero (s.setOp v)) (s.setOp v) with ⟨h1, h2⟩ | ⟨h1, h2⟩
    · exact .inl ⟨of_decide_eq_true h1, h2⟩
    · exact .inr ⟨of_decide_eq_false h1, h2⟩
  | null o => exact ⟨_, by rw [exec, execNull, withOperand_ok _ (show operandValue o s = .ok v from h)], rfl⟩
  | stop o => exact ⟨_, by rw [exec, execStop, withOperand_ok _ (show operandValue o s = .ok v from h)], rfl⟩
  | load o => exact ⟨_, by rw [exec, execLoad, withOperand_ok _ (show operandValue o s = .ok v from h)], rfl⟩
  | jump o => exact ⟨_, by rw [exec, execJump, jumpIf, withOperand_ok _ (show operandValue o s = .ok v from h), if_pos rfl], rfl⟩
  | add o => exact ⟨_, by rw [exec, execAdd, execAlu, withOperand_ok _ (show operandValue o s = .ok v from h)], rfl⟩
  | sub o => exact ⟨_, by rw [exec, execSub, execAlu, withOperand_ok _ (show operandValue o s = .ok v from h)], rfl⟩
  | and o => exact ⟨_, by rw [exec, execAnd, execAlu, withOperand_ok _ (show operandValue o s = .ok v from h)], rfl⟩
  | or o => exact ⟨_, by rw [exec, execOr, execAlu, withOperand_ok _ (show operandValue o s = .ok v from h)], rfl⟩
  | not o => exact ⟨_, by rw [exec, execNot, execAlu, withOperand_ok _ (show operandValue o s = .ok v from h)], rfl⟩
  | xor o => exact ⟨_, by rw [exec, execXor, execAlu, withOperand_ok _ (show operandValue o s = .ok v from h)], rfl⟩
  | shl o => exact ⟨_, by rw [exec, execShl, execAlu, withOperand_ok _ (show operandValue o s = .ok v from h)], rfl⟩
  | shr o => exact ⟨_, by rw [exec, execShr, execAlu, withOperand_ok _ (show operandValue o s = .ok v from h)], rfl⟩

/-- Every instruction resolves its operand first (R125). -/
theorem exec_eq_withOperand (i : Instr) (s : State) : ∃ rule, exec i s = withOperand i.operand s rule := by
  cases i <;>
    simp only [exec, execNull, execStop, execLoad, execStore, execJump, execJneg, execJzero, jumpIf, execAdd, execSub,
      execAnd, execOr, execNot, execXor, execShl, execShr, execAlu, Instr.operand] <;>
    exact ⟨_, rfl⟩

/-- With an operand that cannot be read, every instruction faults (R125). -/
theorem exec_error {i : Instr} {s : State} {a : Word} (h : operandValue i.operand s = .error a) :
    exec i s = .next (s.raise .operandOob a) := by
  obtain ⟨rule, hr⟩ := exec_eq_withOperand i s
  rw [hr, withOperand_error rule h]

/-- Everything exec can do. -/
theorem exec_cases (i : Instr) (s : State) :
    ∃ t, exec i s = .next t ∧
      ((∃ v, operandValue i.operand s = .ok v ∧ OpcodeEffect i (s.setOp v) t) ∨
       (∃ a, operandValue i.operand s = .error a ∧ t = s.raise .operandOob a)) := by
  cases h : operandValue i.operand s with
  | ok v =>
    obtain ⟨t, h1, h2⟩ := exec_ok h
    exact ⟨t, h1, .inl ⟨v, rfl, h2⟩⟩
  | error a => exact ⟨_, exec_error h, .inr ⟨a, rfl, rfl⟩⟩

/-- The opcode's rule leaves IR, OP and the host's part alone. -/
theorem OpcodeEffect.host {i : Instr} {s t : State} (h : OpcodeEffect i s t) :
    t.ir = s.ir ∧ t.op = s.op ∧ t.held = s.held ∧ t.dbg = s.dbg ∧ t.bp = s.bp ∧ t.commands = s.commands := by
  cases i <;> simp only [OpcodeEffect] at h
  case store => rcases h with ⟨_, rfl⟩ | ⟨_, rfl⟩ <;> exact ⟨rfl, rfl, rfl, rfl, rfl, rfl⟩
  case jneg => rcases h with ⟨_, rfl⟩ | ⟨_, rfl⟩ <;> exact ⟨rfl, rfl, rfl, rfl, rfl, rfl⟩
  case jzero => rcases h with ⟨_, rfl⟩ | ⟨_, rfl⟩ <;> exact ⟨rfl, rfl, rfl, rfl, rfl, rfl⟩
  all_goals subst h; exact ⟨rfl, rfl, rfl, rfl, rfl, rfl⟩

/-- An instruction leaves IR and the host's part alone, faulting or not. -/
theorem exec_host {i : Instr} {s t : State} (h : exec i s = .next t) :
    t.ir = s.ir ∧ t.held = s.held ∧ t.dbg = s.dbg ∧ t.bp = s.bp ∧ t.commands = s.commands := by
  obtain ⟨u, hu, hc⟩ := exec_cases i s
  rw [hu] at h
  cases h
  rcases hc with ⟨v, _, he⟩ | ⟨a, _, rfl⟩
  · have := he.host
    exact ⟨this.1, this.2.2.1, this.2.2.2.1, this.2.2.2.2.1, this.2.2.2.2.2⟩
  · exact ⟨rfl, rfl, rfl, rfl, rfl⟩

/-- An instruction keeps memory's canonical form (20_memory.md R61: only through the port). -/
theorem exec_mem_wf {i : Instr} {s t : State} (h : exec i s = .next t) (hm : s.mem.wf = true) : t.mem.wf = true := by
  obtain ⟨u, hu, hc⟩ := exec_cases i s
  rw [hu] at h
  cases h
  rcases hc with ⟨v, _, he⟩ | ⟨a, _, rfl⟩
  · cases i <;> simp only [OpcodeEffect] at he
    case store =>
      rcases he with ⟨h1, rfl⟩ | ⟨_, rfl⟩
      · exact Memory.write_wf _ hm h1
      · exact hm
    case jneg => rcases he with ⟨_, rfl⟩ | ⟨_, rfl⟩ <;> exact hm
    case jzero => rcases he with ⟨_, rfl⟩ | ⟨_, rfl⟩ <;> exact hm
    all_goals subst he; exact hm
  · exact hm

end Sys2Proof.Machine
end

