-- ==== Sys2Proof/Laws/Step.lean ====
section
/-! SUPPORT. What fetch, the pause point and a step can do. -/

namespace Sys2Proof.Machine

/-- The pre-fetch check writes DBG only (60_exceptions.md R223). -/
theorem preFetchCheck_cases (s : State) :
    (s.dbg = .waitingForBreakpoint ∧ s.bp.has s.pc = true ∧ preFetchCheck s = s.setDbg .enabled) ∨
    (¬ (s.dbg = .waitingForBreakpoint ∧ s.bp.has s.pc = true) ∧ preFetchCheck s = s) := by
  unfold preFetchCheck
  by_cases h : s.dbg = .waitingForBreakpoint ∧ s.bp.has s.pc = true
  · exact .inl ⟨h.1, h.2, by rw [if_pos h]⟩
  · exact .inr ⟨h, by rw [if_neg h]⟩

theorem preFetchCheck_eq (s : State) : preFetchCheck s = s.setDbg (preFetchCheck s).dbg := by
  rcases preFetchCheck_cases s with ⟨_, _, h⟩ | ⟨_, h⟩ <;> rw [h] <;> rfl

/-- The three ways out of fetch (R121 to R123). -/
theorem fetch_cases (s : State) :
    (512 ≤ uint s.pc ∧ fetch s = .error (s.raise .fetchOob s.pc)) ∨
    (uint s.pc < 512 ∧ decode (s.wordAt (uint s.pc)) = .error .illegalOpcode ∧
      fetch s = .error (s.raise .illegalOpcode s.pc)) ∨
    (uint s.pc < 512 ∧ ∃ i, decode (s.wordAt (uint s.pc)) = .ok i ∧
      fetch s = .ok (s.latch (s.wordAt (uint s.pc)))) := by
  cases h : memRead s.pc s with
  | error a =>
    obtain ⟨h1, rfl⟩ := memRead_error.1 h
    exact .inl ⟨h1, by simp [fetch, h]⟩
  | ok w =>
    obtain ⟨h1, rfl⟩ := memRead_ok.1 h
    rcases decode_isOk (s.wordAt (uint s.pc)) with ⟨i, hi, _⟩ | ⟨hi, _⟩
    · exact .inr (.inr ⟨h1, i, hi, by simp [fetch, h, hi]⟩)
    · exact .inr (.inl ⟨h1, hi, by simp [fetch, h, hi]⟩)

/-- Everything a step can do. -/
theorem step_cases (s : State) :
    (∃ r, toPausePoint s = .stopped r ∧ step s = .fault r) ∨
    (∃ t, toPausePoint s = .ended t ∧ step s = .next t) ∨
    (∃ t, toPausePoint s = .passes t ∧ step s = execIr t) := by
  unfold step cycleStep
  cases h : toPausePoint s with
  | stopped r => exact .inl ⟨r, rfl, rfl⟩
  | ended t => exact .inr (.inl ⟨t, rfl, rfl⟩)
  | passes t => exact .inr (.inr ⟨t, rfl, rfl⟩)

/-- What IR's instruction answers. -/
theorem execIr_cases (s : State) :
    (∃ i, decode s.ir = .ok i ∧ execIr s = exec i s) ∨ (opcodeField s.ir = 15 ∧ execIr s = .fault .noInstruction) := by
  unfold execIr
  rcases decode_isOk s.ir with ⟨i, hi, _⟩ | ⟨hi, h⟩
  · exact .inl ⟨i, hi, by rw [hi]⟩
  · exact .inr ⟨h, by rw [hi]⟩

/-- The part of a step before resolution leaves AC, OP and memory alone (R120). -/
theorem toPausePoint_frame {s t : State} (h : toPausePoint s = .ended t ∨ toPausePoint s = .passes t) :
    t.ac = s.ac ∧ t.op = s.op ∧ t.mem = s.mem := by
  unfold toPausePoint at h
  cases hr : s.run with
  | halted => simp [hr] at h
  | faulted => simp [hr] at h
  | running =>
    rw [hr] at h
    by_cases hh : s.held = true
    · simp only [hh, if_true, answerHold] at h
      cases hc : s.commands with
      | nil => simp [hc] at h
      | cons c rest =>
        rw [hc] at h
        cases c <;> simp only [obey, reduceCtorEq, Progress.ended.injEq, Progress.passes.injEq, false_or, or_false] at h <;>
          subst h <;> exact ⟨rfl, rfl, rfl⟩
    · simp only [hh, startCycle, Bool.false_eq_true, if_false] at h
      have hp : ∀ u, preFetchCheck s = u → u.ac = s.ac ∧ u.op = s.op ∧ u.mem = s.mem := by
        rintro u rfl
        rcases preFetchCheck_cases s with ⟨_, _, e⟩ | ⟨_, e⟩ <;> rw [e] <;> exact ⟨rfl, rfl, rfl⟩
      obtain ⟨p1, p2, p3⟩ := hp _ rfl
      rcases fetch_cases (preFetchCheck s) with ⟨_, hf⟩ | ⟨_, _, hf⟩ | ⟨_, i, _, hf⟩ <;> rw [hf] at h
      · simp only [reduceCtorEq, Progress.ended.injEq, or_false] at h
        subst h; exact ⟨p1, p2, p3⟩
      · simp only [reduceCtorEq, Progress.ended.injEq, or_false] at h
        subst h; exact ⟨p1, p2, p3⟩
      · dsimp only at h
        split at h <;>
          simp only [reduceCtorEq, Progress.ended.injEq, Progress.passes.injEq, false_or, or_false] at h <;>
          subst h <;> exact ⟨p1, p2, p3⟩

/-- IR's instruction is well formed, and its meaning is what the step answers. -/
theorem execIr_next {u t : State} (h : execIr u = .next t) : ∃ i, decode u.ir = .ok i ∧ i.wellFormed = true ∧ exec i u = .next t := by
  rcases execIr_cases u with ⟨i, hi, he⟩ | ⟨_, he⟩
  · exact ⟨i, hi, decode_wellFormed hi, he ▸ h⟩
  · rw [he] at h; cases h

/-- PC's increment never wraps, because fetch passed its bound (R123). -/
theorem uint_pc_succ {w : Word} (h : uint w < 512) : uint (w16 (uint w + 1)) = uint w + 1 := by
  have := uint_w16_of_range (i := (uint w : Int) + 1) (by omega) (by omega)
  omega

/-- A held core obeys the next command (R226). -/
theorem toPausePoint_of_held {s : State} {c : HostCommand} {rest : List HostCommand} (hr : s.run = .running)
    (hh : s.held = true) (hc : s.commands = c :: rest) : toPausePoint s = obey c (s.setCommands rest) := by
  simp [toPausePoint, hr, hh, answerHold, hc]

/-- A running core that is not held starts a cycle (R120). -/
theorem toPausePoint_of_free {s : State} (hr : s.run = .running) (hh : s.held = false) : toPausePoint s = startCycle s := by
  simp [toPausePoint, hr, hh]
/-- A cycle whose fetch finds an instruction ends at the pause point or passes it (R124). -/
theorem startCycle_ok {s : State} {i : Instr} (hl : uint s.pc < 512) (hi : decode (s.wordAt (uint s.pc)) = .ok i) :
    startCycle s = if (preFetchCheck s).dbg = .enabled then .ended (((preFetchCheck s).latch (s.wordAt (uint s.pc))).setHeld true)
      else .passes ((preFetchCheck s).latch (s.wordAt (uint s.pc))) := by
  have e := preFetchCheck_eq s
  have e1 : (preFetchCheck s).pc = s.pc := by rw [e]; rfl
  have e2 : ∀ n, (preFetchCheck s).wordAt n = s.wordAt n := by rw [e]; intro n; rfl
  rw [startCycle]
  rcases fetch_cases (preFetchCheck s) with ⟨h1, hf⟩ | ⟨h1, h2, hf⟩ | ⟨h1, j, h2, hf⟩ <;> rw [hf]
  · rw [e1] at h1; omega
  · rw [e1, e2, hi] at h2; cases h2
  · simp only [e1, e2]; rfl

/-- Everything that can pass the pause point. -/
theorem toPausePoint_passes {s u : State} (h : toPausePoint s = .passes u) :
    s.run = .running ∧ u.run = .running ∧ u.haltReason = s.haltReason ∧ u.faultCause = s.faultCause ∧
    u.faultAddr = s.faultAddr ∧ u.held = false ∧ u.bp = s.bp ∧ u.ac = s.ac ∧ u.mem = s.mem ∧ u.op = s.op ∧
    ((s.held = false ∧ uint s.pc < 512 ∧ u.pc = w16 (uint s.pc + 1) ∧ u.ir = s.wordAt (uint s.pc) ∧
      u.dbg = s.dbg ∧ u.dbg ≠ .enabled ∧ u.commands = s.commands ∧ (∃ i, decode u.ir = .ok i)) ∨
     (s.held = true ∧ u.pc = s.pc ∧ u.ir = s.ir)) := by
  have hf := toPausePoint_frame (.inr h)
  unfold toPausePoint at h
  cases hr : s.run with
  | halted => simp [hr] at h
  | faulted => simp [hr] at h
  | running =>
    rw [hr] at h
    by_cases hh : s.held = true
    · simp only [hh, if_true, answerHold] at h
      cases hc : s.commands with
      | nil => simp [hc] at h
      | cons c rest =>
        rw [hc] at h
        cases c <;> simp only [obey, reduceCtorEq, Progress.passes.injEq] at h <;> subst h <;>
         exact ⟨rfl, hr, rfl, rfl, rfl, rfl, rfl, rfl, rfl, rfl, .inr ⟨hh, rfl, rfl⟩⟩
    · have hh : s.held = false := by simpa using hh
      simp only [hh, startCycle, Bool.false_eq_true, if_false] at h
      rcases fetch_cases (preFetchCheck s) with ⟨_, hf⟩ | ⟨_, _, hf⟩ | ⟨hl, i, hi, hf⟩ <;> rw [hf] at h
      · simp at h
      · simp at h
      · dsimp only at h
        split at h
        · simp at h
        · next hne =>
          cases h
          rcases preFetchCheck_cases s with ⟨_, _, e⟩ | ⟨_, e⟩ <;> rw [e] at hne hl hi ⊢
          · exact absurd rfl hne
          · exact ⟨rfl, hr, rfl, rfl, rfl, hh, rfl, rfl, rfl, rfl, .inl
            ⟨hh, hl, rfl, rfl, rfl, hne, rfl, i, hi⟩⟩

/-- Everything that can end a step before resolution. -/
theorem toPausePoint_ended {s u : State} (h : toPausePoint s = .ended u) :
    s.run = .running ∧
    ((s.held = false ∧ 512 ≤ uint s.pc ∧ u = (preFetchCheck s).raise .fetchOob s.pc) ∨
     (s.held = false ∧ uint s.pc < 512 ∧ decode (s.wordAt (uint s.pc)) = .error .illegalOpcode ∧
        u = (preFetchCheck s).raise .illegalOpcode s.pc) ∨
     (s.held = false ∧ uint s.pc < 512 ∧ (∃ i, decode (s.wordAt (uint s.pc)) = .ok i) ∧ (preFetchCheck s).dbg = .enabled ∧
        u = ((preFetchCheck s).latch (s.wordAt (uint s.pc))).setHeld true) ∨
     (s.held = true ∧ ∃ c rest, s.commands = c :: rest ∧
        ((∃ b, (s.bp.wf = true → b.wf = true) ∧ u = (s.setCommands rest).setBp b) ∨ (u = ((s.setCommands rest).halt .quit).setHeld false)))) := by
  unfold toPausePoint at h
  cases hr : s.run with
  | halted => simp [hr] at h
  | faulted => simp [hr] at h
  | running =>
    rw [hr] at h
    refine ⟨rfl, ?_⟩
    by_cases hh : s.held = true
    · refine .inr (.inr (.inr ⟨hh, ?_⟩))
      simp only [hh, if_true, answerHold] at h
      cases hc : s.commands with
      | nil => simp [hc] at h
      | cons c rest =>
        rw [hc] at h
        refine ⟨c, rest, rfl, ?_⟩
        cases c <;> simp only [obey, reduceCtorEq, Progress.ended.injEq] at h <;> subst h
        case addBreakpoint a => exact .inl ⟨s.bp.insert a, Breakpoints.insert_wf, rfl⟩
        case deleteBreakpoint a => exact .inl ⟨s.bp.erase a, Breakpoints.erase_wf, rfl⟩
        case quit => exact .inr rfl
        all_goals exact .inl ⟨s.bp, id, rfl⟩
    · have hh : s.held = false := by simpa using hh
      simp only [hh, startCycle, Bool.false_eq_true, if_false] at h
      have e := preFetchCheck_eq s
      have e1 : (preFetchCheck s).pc = s.pc := by rw [e]; rfl
      have e2 : ∀ n, (preFetchCheck s).wordAt n = s.wordAt n := by rw [e]; intro n; rfl
      rcases fetch_cases (preFetchCheck s) with ⟨hl, hf⟩ | ⟨hl, hd, hf⟩ | ⟨hl, i, hi, hf⟩ <;> rw [hf] at h <;> simp only [e1, e2] at *
      · cases h; exact .inl ⟨hh, hl, rfl⟩
      · cases h; exact .inr (.inl ⟨hh, hl, hd, rfl⟩)
      · split at h
        · next he => cases h; exact .inr (.inr (.inl ⟨hh, hl, ⟨i, hi⟩, he, rfl⟩))
        · cases h

/-- While RUN = RUNNING no reason and no cause is recorded (R39). -/
theorem statusWf_running {s : State} (h : s.statusWf = true) (hr : s.run = .running) :
    s.haltReason = .none ∧ s.faultCause = .none ∧ s.faultAddr = 0x0000#16 := by
  unfold State.statusWf at h
  rw [hr] at h
  cases h1 : s.haltReason <;> cases h2 : s.faultCause <;> simp [h1, h2] at h
  exact ⟨rfl, rfl, h⟩

/-- An instruction does the same with and without a host (60_exceptions.md R233). -/
theorem OpcodeEffect.hostless {i : Instr} {s t : State} (h : OpcodeEffect i s t) : OpcodeEffect i s.hostless t.hostless := by
  cases i with
  | store o => rcases h with ⟨h, rfl⟩ | ⟨h, rfl⟩; exact .inl ⟨h, rfl⟩; exact .inr ⟨h, rfl⟩
  | jneg o => rcases h with ⟨h, rfl⟩ | ⟨h, rfl⟩; exact .inl ⟨h, rfl⟩; exact .inr ⟨h, rfl⟩
  | jzero o => rcases h with ⟨h, rfl⟩ | ⟨h, rfl⟩; exact .inl ⟨h, rfl⟩; exact .inr ⟨h, rfl⟩
  | _ => cases h; rfl

/-- An instruction has one effect on a state. -/
theorem OpcodeEffect.det {i : Instr} {s t u : State} (h : OpcodeEffect i s t) (h' : OpcodeEffect i s u) : t = u := by
  cases i with
  | store o => rcases h with ⟨h, rfl⟩ | ⟨h, rfl⟩ <;> rcases h' with ⟨h', rfl⟩ | ⟨h', rfl⟩ <;> first | rfl | omega
  | jneg o => rcases h with ⟨h, rfl⟩ | ⟨h, rfl⟩ <;> rcases h' with ⟨h', rfl⟩ | ⟨h', rfl⟩ <;> first | rfl | omega
  | jzero o =>
    rcases h with ⟨h, rfl⟩ | ⟨h, rfl⟩ <;> rcases h' with ⟨h', rfl⟩ | ⟨h', rfl⟩ <;>
      first | rfl | exact absurd h h' | exact absurd h' h
  | _ => cases h; cases h'; rfl

/-- A meaning answers the same with and without a host. -/
theorem exec_hostless {i : Instr} {s t : State} (h : exec i s = .next t) : exec i s.hostless = .next t.hostless := by
  obtain ⟨t1, h1, hc⟩ := exec_cases i s
  rw [h1] at h; cases h
  have e : operandValue i.operand s.hostless = operandValue i.operand s := operandValue_congr _ rfl rfl
  rcases hc with ⟨v, hv, he⟩ | ⟨a, ha, rfl⟩
  · obtain ⟨t2, h2, he2⟩ := exec_ok (i := i) (s := s.hostless) (e.trans hv)
    have := OpcodeEffect.hostless he
    rw [h2, OpcodeEffect.det he2 this]
  · rw [exec_error (e.trans ha)]; rfl

theorem core_run_succ (M : Host.Core) (k : Nat) (s : M.State) :
    M.run (k + 1) s =
      match M.step s with
      | .next t    => M.run k t
      | .fault r   => .fault r
      | .refused r => .refused r := by
  cases h : M.step s <;> simp only [Host.Core.run, h]

/-- `runSteps` is the host's own run of the machine. -/
theorem runSteps_eq_core_run (k : Nat) (s : State) : runSteps k s = Host.Core.run Sys2Proof.core k s := by
  induction k generalizing s with
  | zero => rfl
  | succ k ih =>
    refine Eq.trans ?_ (core_run_succ Sys2Proof.core k s).symm
    rw [runSteps]
    cases h : step s with
    | next t => rw [show Sys2Proof.core.step s = .next t from h]; exact ih t
    | fault r => rw [show Sys2Proof.core.step s = .fault r from h]; rfl
    | refused r => rw [show Sys2Proof.core.step s = .refused r from h]; rfl

end Sys2Proof.Machine
end

