-- ==== Sys2Proof/Laws/Operands.lean ====
section
/-! SUPPORT. The address resolver computes what the tables of 40_cycle.md R126 and R131 say, for every operand the encoding
admits. -/

namespace Sys2Proof.Machine

theorem sint_w16_of_range {i : Int} (h0 : -32768 ≤ i) (h1 : i ≤ 32767) : sint (w16 i) = i := by
  simp only [sint, w16, BitVec.toInt_ofInt]
  exact Int.bmod_eq_of_le (by omega) (by omega)

theorem sint_inj {v w : Word} (h : sint v = sint w) : v = w := BitVec.eq_of_toInt_eq h

/-- Reading at a presented integer `i` (20_memory.md R63). -/
theorem memRead_w16 {i : Int} (s : State) (h0 : -65024 ≤ i) (h1 : i ≤ 65535) :
    (0 ≤ i ∧ i ≤ 511 ∧ memRead (w16 i) s = .ok (s.wordAt i.toNat)) ∨
    ((i < 0 ∨ 511 < i) ∧ memRead (w16 i) s = .error (w16 i)) := by
  by_cases hneg : i < 0
  · exact .inr ⟨.inl hneg, memRead_error.2 ⟨uint_w16_of_neg hneg h0, rfl⟩⟩
  · have hu := uint_w16_of_range (i := i) (by omega) h1
    by_cases hbig : 511 < i
    · exact .inr ⟨.inr hbig, memRead_error.2 ⟨by omega, rfl⟩⟩
    · exact .inl ⟨by omega, by omega, memRead_ok.2 ⟨by omega, by rw [hu]⟩⟩

theorem signedAddress_neg_iff (o : Operand) : o.signedAddress < 0 ↔ o.sign = .minus ∧ 0 < o.mag := by
  cases hs : o.sign <;> simp [Operand.signedAddress, hs]

theorem memRead_mag {o : Operand} (s : State) (h : o.wellFormed = true) :
    memRead (w16 (o.mag : Int)) s = .ok (s.wordAt o.mag) := by
  have hm : o.mag < 512 := of_decide_eq_true h
  rcases memRead_w16 (i := (o.mag : Int)) s (by omega) (by omega) with ⟨_, _, h3⟩ | ⟨h3, _⟩
  · simpa using h3
  · omega

/-- A readable operand resolves to its value. -/
theorem operandValue_of_reads {o : Operand} {s : State} {v : Word} (hw : o.wellFormed = true)
    (h : OperandReads o s v) : operandValue o s = .ok v := by
  have hr := Operand.signedAddress_range hw
  obtain ⟨hd, ha, hs, hp⟩ := h
  cases hm : o.mode with
  | dotMode =>
    have hd := hd hm
    simp only [operandValue, hm, resolveDot, Except.ok.injEq]
    exact (sint_inj (hd.trans (sint_w16_of_range (by omega) (by omega)).symm)).symm
  | atMode =>
    obtain ⟨h0, h1, rfl⟩ := ha hm
    simp only [operandValue, hm, resolveAt]
    rcases memRead_w16 (i := o.signedAddress) s (by omega) (by omega) with ⟨_, _, h3⟩ | ⟨h3, _⟩
    · exact h3
    · omega
  | starMode =>
    obtain ⟨h0, rfl⟩ := hs hm
    simp only [operandValue, hm, resolveStar, memRead_mag s hw]
    exact memRead_ok.2 ⟨h0, rfl⟩
  | plusMode =>
    obtain ⟨h0, h1, rfl⟩ := hp hm
    simp only [operandValue, hm, resolvePlus]
    rcases memRead_w16 (i := sint s.ac + o.signedAddress) s (by omega) (by omega) with ⟨_, _, h3⟩ | ⟨h3, _⟩
    · exact h3
    · omega

/-- An operand that cannot be read faults at its address. -/
theorem operandValue_of_faults {o : Operand} {s : State} {a : Word} (hw : o.wellFormed = true)
    (h : OperandFaults o s a) : operandValue o s = .error a := by
  have hr := Operand.signedAddress_range hw
  have hac := sint_range s.ac
  obtain ⟨hd, ha, hs, hp⟩ := h
  cases hm : o.mode with
  | dotMode => exact (hd hm).elim
  | atMode =>
    obtain ⟨h0, h1, rfl⟩ := ha hm
    have hneg := (signedAddress_neg_iff o).2 ⟨h0, h1⟩
    simp only [operandValue, hm, resolveAt]
    rcases memRead_w16 (i := o.signedAddress) s (by omega) (by omega) with ⟨h3, _⟩ | ⟨_, h3⟩
    · omega
    · exact h3
  | starMode =>
    obtain ⟨h0, rfl⟩ := hs hm
    simp only [operandValue, hm, resolveStar, memRead_mag s hw]
    exact memRead_error.2 ⟨h0, rfl⟩
  | plusMode =>
    obtain ⟨h0, rfl⟩ := hp hm
    simp only [operandValue, hm, resolvePlus]
    rcases memRead_w16 (i := sint s.ac + o.signedAddress) s (by omega) (by omega) with ⟨h3, h4, _⟩ | ⟨_, h3⟩
    · omega
    · exact h3

/-- Every operand the encoding admits can be read, or faults (R131). -/
theorem operand_reads_or_faults {o : Operand} (s : State) (hw : o.wellFormed = true) :
    (∃ v, OperandReads o s v) ∨ (∃ a, OperandFaults o s a) := by
  have hr := Operand.signedAddress_range hw
  cases hm : o.mode with
  | dotMode =>
    refine .inl ⟨w16 o.signedAddress, fun _ => sint_w16_of_range (by omega) (by omega), ?_, ?_, ?_⟩ <;> simp [hm]
  | atMode =>
    by_cases h : o.signedAddress < 0
    · have := (signedAddress_neg_iff o).1 h
      exact .inr ⟨w16 o.signedAddress, by simp [hm], fun _ => ⟨this.1, this.2, rfl⟩, by simp [hm], by simp [hm]⟩
    · exact .inl ⟨_, by simp [hm], fun _ => ⟨by omega, hr.2, rfl⟩, by simp [hm], by simp [hm]⟩
  | starMode =>
    by_cases h : uint (s.wordAt o.mag) < 512
    · exact .inl ⟨_, by simp [hm], by simp [hm], fun _ => ⟨h, rfl⟩, by simp [hm]⟩
    · exact .inr ⟨_, by simp [hm], by simp [hm], fun _ => ⟨by omega, rfl⟩, by simp [hm]⟩
  | plusMode =>
    by_cases h : 0 ≤ sint s.ac + o.signedAddress ∧ sint s.ac + o.signedAddress ≤ 511
    · exact .inl ⟨_, by simp [hm], by simp [hm], by simp [hm], fun _ => ⟨h.1, h.2, rfl⟩⟩
    · exact .inr ⟨_, by simp [hm], by simp [hm], by simp [hm], fun _ => ⟨by omega, rfl⟩⟩

/-- What operand resolution answers, in the tables' words. -/
theorem operandValue_ok_iff {o : Operand} {s : State} {v : Word} (hw : o.wellFormed = true) :
    operandValue o s = .ok v ↔ OperandReads o s v := by
  refine ⟨fun h => ?_, operandValue_of_reads hw⟩
  rcases operand_reads_or_faults s hw with ⟨v', h'⟩ | ⟨a, h'⟩
  · have := operandValue_of_reads hw h'
    rw [h] at this
    cases this
    exact h'
  · have := operandValue_of_faults hw h'
    rw [h] at this
    cases this

theorem operandValue_error_iff {o : Operand} {s : State} {a : Word} (hw : o.wellFormed = true) :
    operandValue o s = .error a ↔ OperandFaults o s a := by
  refine ⟨fun h => ?_, operandValue_of_faults hw⟩
  rcases operand_reads_or_faults s hw with ⟨v, h'⟩ | ⟨a', h'⟩
  · have := operandValue_of_reads hw h'
    rw [h] at this
    cases this
  · have := operandValue_of_faults hw h'
    rw [h] at this
    cases this
    exact h'

end Sys2Proof.Machine
end

