-- ==== Sys2Proof/Laws/Alu.lean ====
section
/-! SUPPORT. What the ALU's formulas on exact integers are as operations on words and on their bits (44_alu.md R181 to R190). -/

namespace Sys2Proof.Machine

theorem w16_sint (w : Word) : w16 (sint w) = w := BitVec.ofInt_toInt

theorem w16_uint (w : Word) : w16 (uint w : Int) = w := by
  rw [w16, uint, BitVec.ofInt_natCast, BitVec.ofNat_toNat, BitVec.setWidth_eq]

theorem w16_add (a b : Int) : w16 (a + b) = w16 a + w16 b := BitVec.ofInt_add ..

theorem w16_neg (a : Int) : w16 (-a) = -(w16 a) := BitVec.ofInt_neg ..

theorem w16_sub (a b : Int) : w16 (a - b) = w16 a - w16 b := by
  rw [Int.sub_eq_add_neg, w16_add, w16_neg, BitVec.sub_eq_add_neg]

theorem aluAdd_eq (ac op : Word) : aluAdd ac op = ac + op := by
  rw [aluAdd, w16_add, w16_sint, w16_sint]

theorem aluSub_eq (ac op : Word) : aluSub ac op = ac - op := by
  rw [aluSub, w16_sub, w16_sint, w16_sint]

theorem aluNot_eq (ac op : Word) : aluNot ac op = w16 (-(sint ac) - 1) := by
  rw [aluNot, w16_sub, w16_neg, w16_sint, BitVec.not_eq_neg_add]
  rfl

theorem aluShl_eq (ac op : Word) : aluShl ac op = ac <<< uint op := by
  apply BitVec.eq_of_toNat_eq
  rw [aluShl, BitVec.toNat_shiftLeft, Nat.shiftLeft_eq]
  by_cases h : 16 ≤ uint op
  · rw [if_pos h]
    have : 2 ^ 16 ∣ ac.toNat * 2 ^ uint op := Dvd.dvd.mul_left (Nat.pow_dvd_pow 2 h) _
    simpa using (Nat.mod_eq_zero_of_dvd this).symm
  · rw [if_neg h]
    have : ((uint ac : Int) * 2 ^ uint op) = ((uint ac * 2 ^ uint op : Nat) : Int) := by push_cast; rfl
    rw [w16, this, BitVec.ofInt_natCast, BitVec.toNat_ofNat]

theorem aluShr_eq (ac op : Word) : aluShr ac op = ac.sshiftRight (min (uint op) 16) := by
  have e : Int.fdiv (sint ac) (2 ^ min (uint op) 16) = (ac.sshiftRight (min (uint op) 16)).toInt := by
    rw [Int.fdiv_eq_ediv_of_nonneg _ (by positivity), BitVec.toInt_sshiftRight, Int.shiftRight_eq_div_pow]
    norm_cast
  rw [aluShr, e]
  exact BitVec.ofInt_toInt

theorem aluShl_bit (ac op : Word) {k : Nat} (hk : k < 16) :
    (aluShl ac op).getLsbD k = (decide (uint op ≤ k) && ac.getLsbD (k - uint op)) := by
  rw [aluShl_eq, BitVec.getLsbD_shiftLeft]
  by_cases h : uint op ≤ k <;> simp only [hk, h] <;> simp
  · omega
  · intro h'; omega

theorem aluShr_bit (ac op : Word) {k : Nat} (hk : k < 16) :
    (aluShr ac op).getLsbD k = ac.getLsbD (min (k + uint op) 15) := by
  rw [aluShr_eq, BitVec.getLsbD_sshiftRight]
  have h1 : ¬ 16 ≤ k := by omega
  by_cases h : min (uint op) 16 + k < 16
  · have : min (uint op) 16 + k = min (k + uint op) 15 := by omega
    simp only [h1, this]
    simp
  · have : min (k + uint op) 15 = 15 := by omega
    simp only [h1, this, BitVec.msb, BitVec.getMsbD]
    simp
    exact fun h' => absurd h' h

end Sys2Proof.Machine
end

