-- ==== Sys2Proof/Tests/Slice0.lean ====
section
/-! SUPPORT. Tests on fixed values, each from the row of 95_test_vectors.md with its instruction word, and one witness for each statement that has
hypotheses: concrete states and operands that meet all of them, at the boundaries of each clause. -/

namespace Sys2Proof.Tests

open Sys2Proof Sys2Proof.Machine

/-! ## Well-formedness (R107) -/

def dot (v : Int) : Operand := { sign := if v < 0 then .minus else .plus, mode := .dotMode, mag := v.natAbs }
def at' (v : Int) : Operand := { sign := if v < 0 then .minus else .plus, mode := .atMode, mag := v.natAbs }
def star (v : Int) : Operand := { sign := if v < 0 then .minus else .plus, mode := .starMode, mag := v.natAbs }
def plus (v : Int) : Operand := { sign := if v < 0 then .minus else .plus, mode := .plusMode, mag := v.natAbs }

theorem test_wellFormed_accepts_511 : (Instr.load (dot (-511))).wellFormed = true := by decide
theorem test_wellFormed_refuses_512 : (Instr.load (dot 512)).wellFormed = false := by decide
theorem test_wellFormed_refuses_minus_512 : (Instr.xor (plus (-512))).wellFormed = false := by decide

/-! ## Decoding: the word written field by field, as R90 lays it out: sign, opcode, mode, magnitude -/

def word (s : BitVec 1) (o : BitVec 4) (m : BitVec 2) (a : BitVec 9) : Word := s ++ o ++ m ++ a

/-- The bits decode to the instruction, and the instruction encodes to the bits. -/
abbrev Codes (w : Word) (i : Instr) : Prop := decode w = .ok i ∧ encode i = w

theorem test_code_null : Codes (word 0b0 0b0000 0b01 0b001011000) (.null (at' 88)) := ⟨rfl, rfl⟩
theorem test_code_stop : Codes (word 0b0 0b0001 0b00 0b000000000) (.stop (dot 0)) := ⟨rfl, rfl⟩
theorem test_code_load : Codes (word 0b1 0b0010 0b00 0b111111111) (.load (dot (-511))) := ⟨rfl, rfl⟩
theorem test_code_store : Codes (word 0b1 0b0011 0b10 0b001000000) (.store (star (-64))) := ⟨rfl, rfl⟩
theorem test_code_jump : Codes (word 0b0 0b0100 0b01 0b000110010) (.jump (at' 50)) := ⟨rfl, rfl⟩
theorem test_code_jneg : Codes (word 0b1 0b0101 0b01 0b000000001) (.jneg (at' (-1))) := ⟨rfl, rfl⟩
theorem test_code_jzero : Codes (word 0b0 0b0110 0b11 0b000000000) (.jzero (plus 0)) := ⟨rfl, rfl⟩
theorem test_code_add : Codes (word 0b0 0b0111 0b01 0b000001010) (.add (at' 10)) := ⟨rfl, rfl⟩
theorem test_code_sub : Codes (word 0b1 0b1000 0b00 0b000000010) (.sub (dot (-2))) := ⟨rfl, rfl⟩
theorem test_code_and : Codes (word 0b1 0b1001 0b00 0b111111111) (.and (dot (-511))) := ⟨rfl, rfl⟩
theorem test_code_or : Codes (word 0b0 0b1010 0b00 0b000110100) (.or (dot 52)) := ⟨rfl, rfl⟩
theorem test_code_not : Codes (word 0b0 0b1011 0b11 0b000000000) (.not (plus 0)) := ⟨rfl, rfl⟩
theorem test_code_xor : Codes (word 0b0 0b1100 0b00 0b011111111) (.xor (dot 255)) := ⟨rfl, rfl⟩
theorem test_code_shl : Codes (word 0b0 0b1101 0b00 0b000010000) (.shl (dot 16)) := ⟨rfl, rfl⟩
theorem test_code_shr : Codes (word 0b1 0b1110 0b00 0b000000001) (.shr (dot (-1))) := ⟨rfl, rfl⟩
theorem test_code_fifteen_is_illegal : decode (word 0b1 0b1111 0b11 0b111111111) = .error .illegalOpcode := rfl

/-- 0x9000, a DOT `-0`, keeps its sign bit through the codec (V-SRC-01). -/
theorem test_code_keeps_minus_zero : Codes 0x9000#16 (.load { sign := .minus, mode := .dotMode, mag := 0 }) := ⟨rfl, rfl⟩

/-! ## One step -/

/-- A vector's start: the word at PC, AC, and the listed cells. -/
def start (pc w ac : Word) (cells : Memory) : State :=
  { State.reset with pc := pc, ac := ac, mem := cells.write (uint pc) w }

/-- What a vector's row gives of the end: RUN, FAULT_CAUSE, FAULT_ADDR, AC, PC, OP. -/
structure End where
  run : RunState
  cause : FaultCause
  addr : Word
  ac : Word
  pc : Word
  op : Word
deriving DecidableEq, Repr

def endOf (r : Result) : Option End :=
  match r with
  | .next t => some ⟨t.run, t.faultCause, t.faultAddr, t.ac, t.pc, t.op⟩
  | _       => none

def running (ac pc op : Word) : Option End := some ⟨.running, .none, 0#16, ac, pc, op⟩
def faulted (c : FaultCause) (a ac pc op : Word) : Option End := some ⟨.faulted, c, a, ac, pc, op⟩

theorem test_null_changes_pc_only : endOf (step (start 0 0x0000 0x1234 [])) = running 0x1234 1 0 := by decide
theorem test_null_resolves : endOf (step (start 0 0x8201 0 [])) = faulted .operandOob 0xFFFF 0 1 0 := by decide
theorem test_stop_at_511 : endOf (step (start 511 0x0800 0 [])) = some ⟨.halted, .none, 0, 0, 0x0200, 0⟩ := by decide
theorem test_stop_faults_first : endOf (step (start 0 0x8A01 0 [])) = faulted .operandOob 0xFFFF 0 1 0 := by decide
theorem test_load_star_of_negative_pointer :
    endOf (step (start 0 0x1409 0 [(9, 0xFFFF)])) = faulted .operandOob 0xFFFF 0 1 0 := by decide
theorem test_load_plus_negative_ac :
    endOf (step (start 0 0x160A 0xFFFD [(7, 0x2222)])) = running 0x2222 1 0x2222 := by decide
theorem test_store_star :
    (nextOf (step (start 0 0x1C0B 0x0099 [(11, 0x0028), (40, 0x003C)]))).map (fun t => (t.wordAt 40, t.wordAt 60)) =
      some (0x003C, 0x0099) := by decide
theorem test_store_minus_one : endOf (step (start 0 0x9801 0x0055 [])) = faulted .storeOob 0xFFFF 0x0055 1 0xFFFF := by decide
theorem test_jump_to_600 : endOf (step (start 0 0x2232 0 [(50, 0x0258)])) = running 0 0x0258 0x0258 := by decide
theorem test_jump_minus_one : endOf (step (start 0 0xA001 0 [])) = running 0 0xFFFF 0xFFFF := by decide
theorem test_jneg_taken : endOf (step (start 0 0x2803 0x8000 [])) = running 0x8000 3 3 := by decide
theorem test_jneg_not_taken : endOf (step (start 0 0x2803 0x7FFF [])) = running 0x7FFF 1 3 := by decide
theorem test_jzero_plus_reads_itself : endOf (step (start 0 0x3600 0 [])) = running 0 0x3600 0x3600 := by decide
theorem test_jzero_not_taken : endOf (step (start 0 0x3008 0x8000 [])) = running 0x8000 1 8 := by decide
theorem test_add_wraps : endOf (step (start 0 0x3A0A 0x8000 [(10, 0x8000)])) = running 0 1 0x8000 := by decide
theorem test_add_negative : endOf (step (start 0 0xB803 0x0001 [])) = running 0xFFFE 1 0xFFFD := by decide
theorem test_sub_wraps : endOf (step (start 0 0x4001 0x8000 [])) = running 0x7FFF 1 1 := by decide
theorem test_sub_of_least : endOf (step (start 0 0x420A 0 [(10, 0x8000)])) = running 0x8000 1 0x8000 := by decide
theorem test_and : endOf (step (start 0 0xC9FF 0xFFFF [])) = running 0xFE01 1 0xFE01 := by decide
theorem test_or : endOf (step (start 0 0x5034 0x1200 [])) = running 0x1234 1 0x0034 := by decide
theorem test_xor : endOf (step (start 0 0x60FF 0x1234 [])) = running 0x12CB 1 0x00FF := by decide
theorem test_not_ignores_op : endOf (step (start 0 0x5805 0x1234 [])) = running 0xEDCB 1 5 := by decide
theorem test_not_resolves : endOf (step (start 0 0x5E00 0x0200 [])) = faulted .operandOob 0x0200 0x0200 1 0 := by decide
theorem test_shl_by_15 : endOf (step (start 0 0x680F 0x0003 [])) = running 0x8000 1 0x000F := by decide
theorem test_shl_by_65535 : endOf (step (start 0 0xE801 0x0001 [])) = running 0 1 0xFFFF := by decide
theorem test_shr_floors : endOf (step (start 0 0x7001 0xFFFD [])) = running 0xFFFE 1 1 := by decide
theorem test_shr_by_65535 : endOf (step (start 0 0xF001 0x8000 [])) = running 0xFFFF 1 0xFFFF := by decide
theorem test_illegal_at_37 : endOf (step (start 37 0x7FFF 0 [])) = faulted .illegalOpcode 0x0025 0 0x0025 0 := by decide

/-! ## The loader and the host -/

/-- Lines of program P1 (95_test_vectors.md section 10), with bare `STOP` as R109 reads it. -/
def p1 : List ImageLine :=
  [.instr 0 "LOAD" (some ('.', 7)), .instr 1 "ADD" (some ('@', 10)), .instr 3 "SUB" (some ('.', -2)), .instr 5 "STOP" none,
   .raw 10 5]

theorem test_loader_p1 :
    loadImage p1 = some [(0, 0x1007), (1, 0x3A0A), (3, 0xC002), (5, 0x0800), (10, 0x0005)] := by decide

/-- R105: an index above 511 aborts loading. -/
theorem test_loader_refuses_index_512 : loadImage [.raw 512 5] = none := by decide

/-- `0: LOAD .5`, `1: STOP .0` under an interactive host (section 9). -/
def prompted (cs : List HostCommand) : State := State.construct [(0, 0x1005), (1, 0x0800)] true cs

/-- V-HOST-02: the first prompt shows PC 1; the quit leaves AC and OP alone. -/
theorem test_host_quit_at_first_prompt :
    observe (prompted [.quit]) = [.prompt 1 0x1005] ∧
    endOf (runSteps 2 (prompted [.quit])) = some ⟨.halted, .none, 0, 0, 1, 0⟩ := by decide

/-- V-HOST-05: four prompts at PC 1 and one at PC 2, and the end of V-HOST-01. -/
theorem test_host_commands_change_nothing :
    endOf (runSteps 7 (prompted [.rejected, .mem 0 3, .listBreakpoints, .next, .next])) =
      some ⟨.halted, .none, 0, 5, 2, 0⟩ := by decide

/-! ## Witnesses: the encoding -/

theorem witness_DecodeOfEncodeIsIdentity :
    (Instr.shr (plus (-511))).wellFormed = true ∧ (Instr.null (dot 0)).wellFormed = true := by decide
theorem witness_EncodeOfDecodeIsIdentity : decode 0x91FF#16 = .ok (.load (dot (-511))) := rfl

/-- Both sides of each bound of the illegal words. -/
theorem witness_IllegalWordsAreExactlyOpcodeFifteen :
    decode 0x7800#16 = .error .illegalOpcode ∧ decode 0x7FFF#16 = .error .illegalOpcode ∧
    decode 0xF800#16 = .error .illegalOpcode ∧ decode 0xFFFF#16 = .error .illegalOpcode ∧
    decode 0x77FF#16 = .ok (.shr (plus 511)) ∧ decode 0x8000#16 = .ok (.null { sign := .minus, mode := .dotMode, mag := 0 }) ∧
    decode 0xF7FF#16 = .ok (.shr (plus (-511))) := ⟨rfl, rfl, rfl, rfl, rfl, rfl, rfl⟩

theorem witness_AssembledOperandHasItsInteger :
    operandOfInt .dotMode (-511) = some (dot (-511)) ∧ operandOfInt .plusMode 511 = some (plus 511) ∧
    operandOfInt .atMode 0 = some (at' 0) ∧ operandOfInt .dotMode 512 = none ∧ operandOfInt .dotMode (-512) = none := by decide

/-- A line between others, one of which names its cell earlier; cell 511 and a cell no line names. -/
theorem witness_LoadedImageHoldsItsLines :
    loadImage ([.raw 511 1] ++ .raw 511 40000 :: [.instr 0 "LOAD" (some ('.', 5))]) = some [(0, 0x1005), (511, 0x9C40)] ∧
    (∀ k ∈ [ImageLine.instr 0 "LOAD" (some ('.', 5))], k.index ≠ 511) := by decide

/-! ## Witnesses: operands, at the bounds of each mode -/

def sample (ac : Word) : State :=
  { State.reset with ac := ac, mem := [(7, 0x1111), (9, 0x0014), (20, 0x004D), (30, 0x01FF), (31, 0x0200), (32, 0xFFFF), (511, 0xABCD)] }

theorem witness_operands_that_read :
    OperandReads (dot (-511)) (sample 0) 0xFE01 ∧ OperandReads (dot 511) (sample 0) 0x01FF ∧
    OperandReads { sign := .minus, mode := .dotMode, mag := 0 } (sample 0) 0 ∧
    OperandReads (at' 511) (sample 0) 0xABCD ∧ OperandReads { sign := .minus, mode := .atMode, mag := 0 } (sample 0) 0 ∧
    OperandReads (star 9) (sample 0) 0x004D ∧ OperandReads (star (-9)) (sample 0) 0x004D ∧
    OperandReads (star 30) (sample 0) 0xABCD ∧ OperandReads (star 0) (sample 0) 0 ∧
    OperandReads (plus 2) (sample 5) 0x1111 ∧ OperandReads (plus 1) (sample 0xFFFF) 0 ∧
    OperandReads (plus (-1)) (sample 512) 0xABCD := by and_intros <;> decide

theorem witness_operands_that_fault :
    OperandFaults (at' (-1)) (sample 0) 0xFFFF ∧ OperandFaults (at' (-511)) (sample 0) 0xFE01 ∧
    OperandFaults (star 31) (sample 0) 0x0200 ∧ OperandFaults (star (-32)) (sample 0) 0xFFFF ∧
    OperandFaults (plus (-1)) (sample 0) 0xFFFF ∧ OperandFaults (plus 511) (sample 1) 0x0200 ∧
    OperandFaults (plus 511) (sample 0x8000) 0x81FF := by and_intros <;> decide

/-- What the statement of one instruction asks: a word of its code, an operand that reads, an operand that faults. -/
abbrev Meets (w : Word) (code : Nat) (s : State) (o : Operand) (v : Word) : Prop :=
  uint w / 2048 % 16 = code ∧ o.wellFormed = true ∧ OperandReads o s v ∧ s.mem.wf = true ∧
  (at' (-1)).wellFormed = true ∧ OperandFaults (at' (-1)) s 0xFFFF

theorem witness_NullChangesNoState : Meets 0x0258 0 (sample 0) (at' 511) 0xABCD := by decide
theorem witness_StopHaltsTheCore : Meets 0x0800 1 (sample 0) (dot 0) 0 := by decide
theorem witness_LoadCopiesOperandToAc : Meets 0x91FF 2 (sample 0) (star 9) 0x004D := by decide

/-- A STORE to the top cell and to cell 0, and the least words that are no address of a cell: 512 and a negative one. -/
theorem witness_StoreWritesAcAtOperand :
    Meets 0x1800 3 (sample 5) (dot 511) 511 ∧ Meets 0x1800 3 (sample 5) (dot 0) 0 ∧
    Meets 0x9FFF 3 (sample 5) (at' 31) 512 ∧ Meets 0x9FFF 3 (sample 5) (dot (-1)) 0xFFFF := by and_intros <;> decide

theorem witness_JumpSetsPcToOperand : Meets 0x2000 4 (sample 0) (dot (-1)) 0xFFFF := by decide
theorem witness_JnegJumpsOnNegativeAc :
    Meets 0x2FFF 5 (sample 0xFFFF) (dot 3) 3 ∧ sint (sample 0xFFFF).ac < 0 ∧ sint (sample 0x8000).ac < 0 ∧
    Meets 0x2FFF 5 (sample 0) (dot 3) 3 ∧ 0 ≤ sint (sample 0).ac ∧ 0 ≤ sint (sample 0x7FFF).ac := by and_intros <;> decide
theorem witness_JzeroJumpsOnZeroAc :
    Meets 0x3000 6 (sample 0) (dot 8) 8 ∧ (sample 0).ac = 0 ∧
    Meets 0x3000 6 (sample 0x8000) (dot 8) 8 ∧ (sample 0x8000).ac ≠ 0 := by and_intros <;> decide
theorem witness_AddWrapsModuloWord : Meets 0x3A0A 7 (sample 0x8000) (at' 511) 0xABCD := by decide
theorem witness_SubWrapsModuloWord : Meets 0x4001 8 (sample 0x8000) (dot 1) 1 := by decide
theorem witness_AndIsBitwise : Meets 0xC9FF 9 (sample 0xFFFF) (dot (-511)) 0xFE01 := by decide
theorem witness_OrIsBitwise : Meets 0x5034 10 (sample 0x1200) (dot 52) 0x0034 := by decide
theorem witness_NotComplementsAc : Meets 0x5E00 11 (sample 5) (plus 2) 0x1111 := by decide
theorem witness_XorIsBitwise : Meets 0x60FF 12 (sample 0x1234) (dot 255) 0x00FF := by decide

/-- Shift amounts 15, 16 and 65535: both sides of the width. -/
theorem witness_ShlShiftsLeftByOperand :
    Meets 0x6800 13 (sample 3) (dot 15) 15 ∧ Meets 0x6800 13 (sample 3) (dot 16) 16 ∧
    Meets 0x6800 13 (sample 3) (dot (-1)) 0xFFFF := by and_intros <;> decide
theorem witness_ShrShiftsRightArithmetically :
    Meets 0xF001 14 (sample 0x8000) (dot 15) 15 ∧ Meets 0xF001 14 (sample 0x8000) (dot 16) 16 ∧
    Meets 0xF001 14 (sample 0x8000) (dot (-1)) 0xFFFF := by and_intros <;> decide

theorem witness_EveryInstructionResolvesItsOperand :
    (Instr.null (at' (-1))).wellFormed = true ∧ OperandFaults (Instr.null (at' (-1))).operand (sample 0) 0xFFFF ∧
    (Instr.shr (plus 2)).wellFormed = true ∧ OperandReads (Instr.shr (plus 2)).operand (sample 5) 0x1111 := by decide
theorem witness_StarIsDoubleIndirection :
    uint ((sample 0).wordAt 30) < 512 ∧ 512 ≤ uint ((sample 0).wordAt 31) ∧ 512 ≤ uint ((sample 0).wordAt 32) := by decide

/-- The least and greatest integers the address block produces, and both sides of the bounds of memory. -/
theorem witness_PresentedAddressKeepsItsVerdict :
    inBounds (w16 (-33279)) = false ∧ inBounds (w16 (-1)) = false ∧ inBounds (w16 0) = true ∧ inBounds (w16 511) = true ∧
    inBounds (w16 512) = false ∧ inBounds (w16 65535) = false := by decide

/-! ## Witnesses: frames and whole-machine rules -/

theorem witness_AluInstructionsWriteOnlyAc :
    (plus 2).wellFormed = true ∧ ∃ t, exec (.sub (plus 2)) (sample 5) = .next t ∧ t.ac ≠ 5 := ⟨by decide, _, rfl, by decide⟩
theorem witness_AluInstructionsWriteOnlyAc_faulted :
    ∃ t, exec (.not (at' (-1))) (sample 5) = .next t ∧ OperandFaults (at' (-1)) (sample 5) t.faultAddr := ⟨_, rfl, by decide⟩
theorem witness_NonStoringInstructionsFrame :
    (∃ t, exec (.load (star 9)) (sample 5) = .next t ∧ t.ac = 0x004D) ∧
    (∃ t, exec (.jneg (dot 3)) (sample 0x8000) = .next t ∧ t.pc = 3) ∧
    (∃ t, exec (.stop (dot 0)) (sample 5) = .next t ∧ t.run = .halted) ∧
    (∃ t, exec (.null (at' (-1))) (sample 5) = .next t ∧ t.run = .faulted) :=
  ⟨⟨_, rfl, by decide⟩, ⟨_, rfl, by decide⟩, ⟨_, rfl, by decide⟩, ⟨_, rfl, by decide⟩⟩
theorem witness_StoreFrame :
    (∃ t, exec (.store (dot 511)) (sample 5) = .next t ∧ operandValue (dot 511) (sample 5) = .ok 511) ∧
    (∃ t, exec (.store (at' 31)) (sample 5) = .next t ∧ operandValue (at' 31) (sample 5) = .ok 512) ∧
    (∃ t, exec (.store (at' (-1))) (sample 5) = .next t ∧ operandValue (at' (-1)) (sample 5) = .error 0xFFFF) :=
  ⟨⟨_, rfl, rfl⟩, ⟨_, rfl, rfl⟩, ⟨_, rfl, rfl⟩⟩
theorem witness_OnlyLoadAndAluWriteAc :
    ∃ t, step (start 0 0x3801 0x7FFF []) = .next t ∧ t.ac ≠ 0x7FFF := ⟨_, rfl, by decide⟩
theorem witness_PcChangesOnlyByFetchAndJumps :
    (∃ t, step (start 5 0x2000 0 []) = .next t ∧ t.pc = 0) ∧ (∃ t, step (start 511 0x0000 0 []) = .next t ∧ t.pc = 512) ∧
    (∃ t, step (start 0 0x7800 0 []) = .next t ∧ t.pc = 0) := ⟨⟨_, rfl, by decide⟩, ⟨_, rfl, by decide⟩, ⟨_, rfl, by decide⟩⟩
theorem witness_OnlyStoreWritesMemory :
    (start 0 0x19FF 0x1234 []).mem.wf = true ∧
    ∃ t, step (start 0 0x19FF 0x1234 []) = .next t ∧ t.mem ≠ (start 0 0x19FF 0x1234 []).mem := ⟨by decide, _, rfl, by decide⟩
theorem witness_StoreOobOnlyByStore :
    ∃ t, exec (.store (dot (-1))) (sample 5) = .next t ∧ (sample 5).faultCause ≠ .storeOob ∧ t.faultCause = .storeOob ∧
      OperandReads (dot (-1)) (sample 5) 0xFFFF := ⟨_, rfl, by decide⟩
theorem witness_FaultIsRecordedOnce :
    (start 0 0x8201 0 []).Inv ∧ (∃ t, step (start 0 0x8201 0 []) = .next t ∧ t.faultCause ≠ .none) ∧
    (start 0 0x0800 0 []).Inv ∧ ∃ t, step (start 0 0x0800 0 []) = .next t ∧ t.haltReason ≠ .none :=
  ⟨by decide, ⟨_, rfl, by decide⟩, by decide, _, rfl, by decide⟩

/-- The held state of V-HOST-02's first prompt, with the commands `cs` to come. -/
def atPrompt (cs : List HostCommand) : State :=
  { prompted cs with ir := 0x1005, pc := 1, held := true }

/-- A running state, one held with a command to come and one held with none, all with the invariant; and a state that has ended. -/
theorem witness_RunningCoreAlwaysSteps :
    (sample 0).Inv ∧ (atPrompt [.next]).Inv ∧ (atPrompt []).Inv ∧
    (nextOf (step (start 0 0x0800 0 []))).any (fun t => decide t.Inv && decide (t.run = .halted)) = true := by decide

/-! ## Witnesses: the cycle -/

theorem witness_StepRunsDecodedInstruction :
    (sample 0).run = .running ∧ (sample 0).held = false ∧ uint (sample 0).pc < 512 ∧
    decode ((sample 0).wordAt 0) = .ok (.null (dot 0)) ∧ (sample 0).dbg = .disabled ∧
    (atPrompt [.finish]).run = .running ∧ (atPrompt [.finish]).held = true ∧ decode (atPrompt [.finish]).ir = .ok (.load (dot 5)) ∧
    (atPrompt [.finish]).commands = .finish :: [] ∧ (atPrompt [.next]).commands = .next :: [] ∧
    (atPrompt [.nextBreakpoint]).commands = .nextBreakpoint :: [] :=
  ⟨rfl, rfl, by decide, rfl, rfl, rfl, rfl, rfl, rfl, rfl, rfl⟩

/-- A host that waits for a breakpoint elsewhere lets the cycle pass. -/
theorem witness_StepRunsDecodedInstruction_waiting :
    ({ sample 0 with dbg := .waitingForBreakpoint, bp := [10] } : State).passesPause := .inr ⟨rfl, rfl⟩

theorem witness_FetchOutOfBoundsFaults :
    (start 0x0200 0 0 []).run = .running ∧ (start 0x0200 0 0 []).held = false ∧ 512 ≤ uint (start 0x0200 0 0 []).pc ∧
    512 ≤ uint (start 0xFFFF 0 0 []).pc := by decide
theorem witness_IllegalOpcodeFaultsAtFetch :
    (start 37 0x7FFF 0 []).run = .running ∧ (start 37 0x7FFF 0 []).held = false ∧
    uint ((start 37 0x7FFF 0 []).wordAt 37) / 2048 % 16 = 15 ∧ uint ((start 511 0xF800 0 []).wordAt 511) / 2048 % 16 = 15 := by decide
theorem witness_NoStepAfterTheEnd :
    ({ sample 0 with run := .halted } : State).run = .halted ∧ ({ sample 0 with run := .faulted } : State).run = .faulted := by decide
theorem witness_OutOfRangeJumpFaultsAtNextFetch :
    (at' 31).wellFormed = true ∧ OperandReads (at' 31) (sample 0) 512 ∧ (sample 0).ac = 0 ∧
    OperandReads (dot (-1)) (sample 0x8000) 0xFFFF ∧ sint (sample 0x8000).ac < 0 ∧
    (sample 0).run = .running ∧ (sample 0).held = false := by decide

/-- `STORE .1` at 0, in the state after its fetch: the cell at PC becomes `NULL @511`. -/
theorem witness_StoredWordIsFetchedNext :
    let s : State := { sample 0x03FF with pc := 1 }
    s.mem.wf = true ∧ s.run = .running ∧ s.held = false ∧ s.dbg = .disabled ∧ OperandReads (dot 1) s s.pc ∧ uint s.pc < 512 ∧
    decode s.ac = .ok (.null (at' 511)) ∧ ∃ t, exec (.store (dot 1)) s = .next t :=
  ⟨by decide, rfl, rfl, rfl, by decide, by decide, rfl, _, rfl⟩
theorem witness_StoreThenLoadReturnsTheValue :
    (sample 5).mem.wf = true ∧ (∃ t, exec (.store { sign := .plus, mode := .dotMode, mag := 0 }) (sample 5) = .next t) ∧
    ∃ t, exec (.store { sign := .plus, mode := .dotMode, mag := 511 }) (sample 5) = .next t :=
  ⟨by decide, ⟨_, rfl⟩, _, rfl⟩
theorem witness_NotThenAddOneNegates :
    (dot 0).wellFormed = true ∧ OperandReads (dot 0) (sample 0x8000) 0 ∧ (sample 0x8000).ac = 0x8000 := by decide

/-! ## Witnesses: the host -/

theorem witness_EnabledHostHoldsAfterFetch :
    (prompted []).run = .running ∧ (prompted []).held = false ∧ uint (prompted []).pc < 512 ∧
    decode ((prompted []).wordAt 0) = .ok (.load (dot 5)) ∧ (prompted []).dbg = .enabled := ⟨rfl, rfl, by decide, rfl, rfl⟩

/-- A waiting host at PC 511 with that breakpoint, and with another. -/
theorem witness_PreFetchCheckReEnables :
    let s : State := { sample 0 with pc := 511, dbg := .waitingForBreakpoint, bp := [10, 511] }
    let t : State := { sample 0 with pc := 511, dbg := .waitingForBreakpoint, bp := [510] }
    (∃ b ∈ s.bp, b.val = uint s.pc) ∧ (∀ b ∈ t.bp, b.val ≠ uint t.pc) ∧ (sample 0).dbg ≠ .waitingForBreakpoint :=
  ⟨⟨511, by decide, rfl⟩, by simp, by decide⟩
theorem witness_EnabledHostHoldsAfterFetch_at_breakpoint :
    let s : State := { sample 0 with dbg := .waitingForBreakpoint, bp := [0] }
    s.run = .running ∧ s.held = false ∧ decode (s.wordAt 0) = .ok (.null (dot 0)) ∧ ∃ b ∈ s.bp, b.val = uint s.pc :=
  ⟨rfl, rfl, rfl, 0, by decide, rfl⟩
theorem witness_NonResumingCommandsKeepTheHold :
    (atPrompt [.addBreakpoint 511]).commands = .addBreakpoint 511 :: [] ∧ (atPrompt [.rejected]).held = true ∧
    HostCommand.addBreakpoint 511 ∉ [HostCommand.next, .nextBreakpoint, .finish, .quit] ∧
    HostCommand.deleteBreakpoint 0 ∉ [HostCommand.next, .nextBreakpoint, .finish, .quit] ∧
    HostCommand.rejected ∉ [HostCommand.next, .nextBreakpoint, .finish, .quit] := by decide
theorem witness_QuitHaltsAtThePausePoint :
    (atPrompt [.quit]).run = .running ∧ (atPrompt [.quit]).held = true ∧ (atPrompt [.quit]).commands = .quit :: [] := by decide
theorem witness_UnansweredHoldIsStuck :
    (atPrompt []).run = .running ∧ (atPrompt []).held = true ∧ (atPrompt []).commands = [] := by decide
theorem witness_DisabledHostNeverHolds :
    (start 0 0x3801 0x7FFF []).dbg = .disabled ∧ (start 0 0x3801 0x7FFF []).held = false ∧
    ∃ t, runSteps 2 (start 0 0x3801 0x7FFF []) = .next t := ⟨rfl, rfl, _, rfl⟩

/-- V-HOST-04's run: one prompt, `finish`, and the end between cycles, two cycles later. -/
theorem witness_HostDoesNotChangeTheComputation :
    (prompted [.finish]).held = false ∧ ∃ t, runSteps 3 (prompted [.finish]) = .next t ∧ t.held = false ∧ t.haltReason = .stop ∧
      countSteps endsCycle 3 (prompted [.finish]) = 2 := ⟨rfl, _, rfl, by decide⟩

/-- A STORE's cycle under an ENABLED host, resumed by `next`, and one under a DISABLED host. -/
theorem witness_CompleteCyclesAreEchoed :
    let s : State := { atPrompt [.next] with ir := 0x1814 }
    (∃ t, step s = .next t ∧ completesCycle s = true ∧ t.dbg ≠ .disabled) ∧
    (∃ u, toPausePoint s = .passes u ∧ decode u.ir = .ok (.store (dot 20))) ∧
    ∃ t, step (sample 0) = .next t ∧ completesCycle (sample 0) = true ∧ t.dbg = .disabled :=
  ⟨⟨_, rfl, by decide⟩, ⟨_, rfl, rfl⟩, _, rfl, by decide⟩
theorem witness_CycleCountCountsCompleteCycles :
    (∃ t, runSteps 2 (sample 0) = .next t ∧ t.run ≠ .faulted) ∧
    (∃ t, runSteps 2 (start 511 0x0000 0 []) = .next t ∧ t.run = .faulted) ∧
    (start 511 0x0000 0 []).run = .running ∧ (start 511 0x0000 0 []).dbg = .disabled ∧ (start 511 0x0000 0 []).held = false :=
  ⟨⟨_, rfl, by decide⟩, ⟨_, rfl, by decide⟩, rfl, rfl, rfl⟩

/-! ## Witnesses: reset and the invariant -/

theorem witness_InvariantHoldsAtReset : Memory.wf [(0, 0x1005), (511, 0x0800)] = true := by decide
theorem witness_StepKeepsInvariant :
    (start 0 0x1800 0xBEEF []).Inv ∧ (∃ t, step (start 0 0x1800 0xBEEF []) = .next t ∧ t.mem ≠ (start 0 0x1800 0xBEEF []).mem) ∧
    (prompted []).Inv ∧ ∃ t, step (prompted []) = .next t ∧ t.held = true :=
  ⟨by decide, ⟨_, rfl, by decide⟩, by decide, _, rfl, by decide⟩

end Sys2Proof.Tests
end

/-! # Proofs for 10_state.md: the invariant, the writers of AC and PC, construction -/

namespace Sys2Proof.Machine

/-! ## The pre-fetch check, field by field -/

@[simp] theorem preFetchCheck_pc (s : State) : (preFetchCheck s).pc = s.pc := by rw [preFetchCheck_eq, State.setDbg_pc]
@[simp] theorem preFetchCheck_run (s : State) : (preFetchCheck s).run = s.run := by rw [preFetchCheck_eq, State.setDbg_run]
@[simp] theorem preFetchCheck_held (s : State) : (preFetchCheck s).held = s.held := by rw [preFetchCheck_eq, State.setDbg_held]
@[simp] theorem preFetchCheck_wordAt (s : State) (n : Nat) : (preFetchCheck s).wordAt n = s.wordAt n := by
  rw [preFetchCheck_eq, State.setDbg_wordAt]

/-! ## When the status fields and the hold are consistent -/

theorem statusWf_of_running {s : State} (hrun : s.run = .running) (hreason : s.haltReason = .none)
    (hcause : s.faultCause = .none) (haddr : s.faultAddr = 0x0000#16) : s.statusWf = true := by
  simp [State.statusWf, hrun, hreason, hcause, haddr]

section RunningCore
variable {s : State} (hst : s.statusWf = true) (hrun : s.run = .running)
include hst hrun

theorem statusWf_halt_stop (hir : opcodeField s.ir = 1) : (s.halt .stop).statusWf = true := by
  obtain ⟨-, hcause, haddr⟩ := statusWf_running hst hrun
  simp [State.statusWf, hcause, haddr, hir]

theorem statusWf_halt_quit (hir : opcodeField s.ir ≠ 15) : (s.halt .quit).statusWf = true := by
  obtain ⟨-, hcause, haddr⟩ := statusWf_running hst hrun
  simp [State.statusWf, hcause, haddr, hir]

theorem statusWf_raise_fetchOob (hpc : 512 ≤ uint s.pc) : (s.raise .fetchOob s.pc).statusWf = true := by
  obtain ⟨hreason, -, -⟩ := statusWf_running hst hrun
  simp [State.statusWf, hreason, hpc]

theorem statusWf_raise_illegalOpcode (hpc : uint s.pc < 512) (hw : opcodeField (s.wordAt (uint s.pc)) = 15) :
    (s.raise .illegalOpcode s.pc).statusWf = true := by
  obtain ⟨hreason, -, -⟩ := statusWf_running hst hrun
  simp [State.statusWf, hreason, hpc, hw]

theorem statusWf_raise_operandOob {a : Word} (ha : 512 ≤ uint a) (hir : opcodeField s.ir ≠ 15) :
    (s.raise .operandOob a).statusWf = true := by
  obtain ⟨hreason, -, -⟩ := statusWf_running hst hrun
  simp [State.statusWf, hreason, ha, hir]

theorem statusWf_raise_storeOob (hop : 512 ≤ uint s.op) (hir : opcodeField s.ir = 3) :
    (s.raise .storeOob s.op).statusWf = true := by
  obtain ⟨hreason, -, -⟩ := statusWf_running hst hrun
  simp [State.statusWf, hreason, hop, hir]

end RunningCore

theorem holdWf_of_free {s : State} (hfree : s.held = false) : s.holdWf = true := by simp [State.holdWf, hfree]

theorem holdWf_iff_of_held {s : State} (hheld : s.held = true) :
    s.holdWf = true ↔ s.run = .running ∧ s.dbg = .enabled ∧ opcodeField s.ir ≠ 15 ∧ 1 ≤ uint s.pc ∧ uint s.pc ≤ 512 ∧
      s.wordAt (uint s.pc - 1) = s.ir := by
  simp [State.holdWf, hheld, and_assoc]

/-! ## The invariant along a step (O53) -/

/-- What an opcode's rule does to the status fields: nothing, or STOP's halt (R151), or STORE's fault (R161). -/
theorem OpcodeEffect.status {i : Instr} {s t : State} (h : OpcodeEffect i s t) :
    (t.run = s.run ∧ t.haltReason = s.haltReason ∧ t.faultCause = s.faultCause ∧ t.faultAddr = s.faultAddr) ∨
    (i.opcode = 1 ∧ t = s.halt .stop) ∨
    (i.opcode = 3 ∧ 512 ≤ uint s.op ∧ t = s.raise .storeOob s.op) := by
  cases i with
  | stop o => exact .inr (.inl ⟨rfl, h⟩)
  | store o =>
    obtain ⟨-, rfl⟩ | ⟨hop, rfl⟩ := h
    · exact .inl ⟨rfl, rfl, rfl, rfl⟩
    · exact .inr (.inr ⟨rfl, hop, rfl⟩)
  | jneg o | jzero o => obtain ⟨-, rfl⟩ | ⟨-, rfl⟩ := h <;> exact .inl ⟨rfl, rfl, rfl, rfl⟩
  | _ => subst h; exact .inl ⟨rfl, rfl, rfl, rfl⟩

/-- Executing the instruction in IR leaves the status fields consistent. -/
theorem exec_statusWf {i : Instr} {s t : State} (hst : s.statusWf = true) (hrun : s.run = .running)
    (hir : decode s.ir = .ok i) (h : exec i s = .next t) : t.statusWf = true := by
  obtain ⟨hcode, -, hlt⟩ := decode_ok hir
  obtain ⟨u, hu, hcases⟩ := exec_cases i s
  rw [hu] at h
  cases h
  rcases hcases with ⟨v, -, heff⟩ | ⟨a, ha, rfl⟩
  · have hst' : (s.setOp v).statusWf = true := by
      obtain ⟨hreason, hcause, haddr⟩ := statusWf_running hst hrun
      exact statusWf_of_running hrun hreason hcause haddr
    rcases heff.status with ⟨h1, h2, h3, h4⟩ | ⟨hstop, rfl⟩ | ⟨hstore, hop, rfl⟩
    · obtain ⟨hreason, hcause, haddr⟩ := statusWf_running hst' hrun
      exact statusWf_of_running (h1.trans hrun) (h2.trans hreason) (h3.trans hcause) (h4.trans haddr)
    · exact statusWf_halt_stop hst' hrun (hcode.symm.trans hstop)
    · exact statusWf_raise_storeOob hst' hrun hop (hcode.symm.trans hstore)
  · exact statusWf_raise_operandOob hst hrun (operandValue_error_oob ha) (by omega)

/-- Past the pause point the invariant is kept: the core is running and no longer held. -/
theorem exec_inv {i : Instr} {s t : State} (hs : s.Inv) (hrun : s.run = .running) (hfree : s.held = false)
    (hir : decode s.ir = .ok i) (h : exec i s = .next t) : t.Inv := by
  obtain ⟨hmem, hbp, hst, -⟩ := hs
  obtain ⟨-, hheld, -, hbp', -⟩ := exec_host h
  exact ⟨exec_mem_wf h hmem, hbp' ▸ hbp, exec_statusWf hst hrun hir h, holdWf_of_free (hheld.trans hfree)⟩

/-- The state that passes the pause point has the invariant. -/
theorem toPausePoint_passes_inv {s u : State} (hs : s.Inv) (h : toPausePoint s = .passes u) : u.Inv := by
  obtain ⟨hmem, hbp, hst, -⟩ := hs
  obtain ⟨hrun, hrun', hreason', hcause', haddr', hfree', hbp', -, hmem', -, -⟩ := toPausePoint_passes h
  obtain ⟨hreason, hcause, haddr⟩ := statusWf_running hst hrun
  exact ⟨hmem' ▸ hmem, hbp' ▸ hbp,
    statusWf_of_running hrun' (hreason'.trans hreason) (hcause'.trans hcause) (haddr'.trans haddr), holdWf_of_free hfree'⟩

theorem preFetchCheck_inv {s : State} (hs : s.Inv) (hfree : s.held = false) : (preFetchCheck s).Inv := by
  obtain ⟨hmem, hbp, hst, -⟩ := hs
  rw [preFetchCheck_eq]
  exact ⟨hmem, hbp, hst, holdWf_of_free hfree⟩

/-- A fetch under an ENABLED host enters the hold that R226 describes. -/
theorem latch_setHeld_inv {s : State} {i : Instr} (hs : s.Inv) (hrun : s.run = .running) (hpc : uint s.pc < 512)
    (hw : decode (s.wordAt (uint s.pc)) = .ok i) (hdbg : s.dbg = .enabled) :
    ((s.latch (s.wordAt (uint s.pc))).setHeld true).Inv := by
  obtain ⟨hmem, hbp, hst, -⟩ := hs
  obtain ⟨hreason, hcause, haddr⟩ := statusWf_running hst hrun
  obtain ⟨-, -, hlt⟩ := decode_ok hw
  have hsucc : uint (w16 (uint s.pc + 1)) = uint s.pc + 1 := uint_pc_succ hpc
  refine ⟨hmem, hbp, statusWf_of_running hrun hreason hcause haddr, (holdWf_iff_of_held rfl).2 ?_⟩
  simp only [State.setHeld_pc, State.latch_pc, hsucc]
  exact ⟨hrun, hdbg, hlt.ne, by omega, by omega, rfl⟩

/-- A state in which a step ends before resolution has the invariant. -/
theorem toPausePoint_ended_inv {s u : State} (hs : s.Inv) (h : toPausePoint s = .ended u) : u.Inv := by
  obtain ⟨hrun, hcases⟩ := toPausePoint_ended h
  have hrun' : (preFetchCheck s).run = .running := by simpa using hrun
  rcases hcases with ⟨hfree, hpc, rfl⟩ | ⟨hfree, hpc, hw, rfl⟩ | ⟨hfree, hpc, ⟨i, hw⟩, hdbg, rfl⟩ | ⟨hheld, c, rest, -, hcmd⟩
  case inl =>
    obtain ⟨hmem, hbp, hst, -⟩ := preFetchCheck_inv hs hfree
    refine ⟨hmem, hbp, ?_, holdWf_of_free (by simpa using hfree)⟩
    rw [← preFetchCheck_pc s]
    exact statusWf_raise_fetchOob hst hrun' (by simpa using hpc)
  case inr.inl =>
    obtain ⟨hmem, hbp, hst, -⟩ := preFetchCheck_inv hs hfree
    obtain ⟨i, hi, -⟩ | ⟨-, hcode⟩ := decode_isOk (s.wordAt (uint s.pc))
    · rw [hi] at hw; cases hw
    · refine ⟨hmem, hbp, ?_, holdWf_of_free (by simpa using hfree)⟩
      rw [← preFetchCheck_pc s]
      exact statusWf_raise_illegalOpcode hst hrun' (by simpa using hpc) (by simpa using hcode)
  case inr.inr.inl =>
    have hinv := latch_setHeld_inv (i := i) (preFetchCheck_inv hs hfree) hrun' (by simpa using hpc) (by simpa using hw) hdbg
    simpa only [preFetchCheck_pc, preFetchCheck_wordAt] using hinv
  case inr.inr.inr =>
    obtain ⟨hmem, hbp, hst, hhold⟩ := hs
    rcases hcmd with ⟨b, hb, rfl⟩ | rfl
    · exact ⟨hmem, hb hbp, hst, hhold⟩
    · obtain ⟨-, -, hir, -⟩ := (holdWf_iff_of_held hheld).1 hhold
      exact ⟨hmem, hbp, statusWf_halt_quit (s := s.setCommands rest) hst hrun hir, holdWf_of_free rfl⟩

/-- Settles O53: a step ends at the pause point, or passes it and executes the instruction in IR; both keep the invariant. -/
theorem stepKeepsInvariant : Obligations.StepKeepsInvariant := by
  intro s t hs h
  rcases step_cases s with ⟨r, -, hstep⟩ | ⟨u, hp, hstep⟩ | ⟨u, hp, hstep⟩ <;> rw [hstep] at h
  · cases h
  · cases h
    exact toPausePoint_ended_inv hs hp
  · obtain ⟨i, hi, -, hexec⟩ := execIr_next h
    obtain ⟨-, hrun, -, -, -, hfree, -⟩ := toPausePoint_passes hp
    exact exec_inv (toPausePoint_passes_inv hs hp) hrun hfree hi hexec

/-! ## The writers of AC (O28) -/

/-- LOAD and the ALU instructions write AC, no other opcode's rule does (R31). -/
theorem OpcodeEffect.ac {i : Instr} {s t : State} (h : OpcodeEffect i s t) :
    t.ac = s.ac ∨
      ∃ o, i ∈ [Instr.load o, .add o, .sub o, .and o, .or o, .xor o, .not o, .shl o, .shr o] := by
  cases i with
  | null o | stop o | jump o => subst h; exact .inl rfl
  | store o | jneg o | jzero o => obtain ⟨-, rfl⟩ | ⟨-, rfl⟩ := h <;> exact .inl rfl
  | load o | add o | sub o | and o | or o | not o | xor o | shl o | shr o => exact .inr ⟨o, by simp⟩

theorem exec_ac {i : Instr} {s t : State} (h : exec i s = .next t) :
    t.ac = s.ac ∨
      ∃ o, i ∈ [Instr.load o, .add o, .sub o, .and o, .or o, .xor o, .not o, .shl o, .shr o] := by
  obtain ⟨u, hu, hcases⟩ := exec_cases i s
  rw [hu] at h
  cases h
  rcases hcases with ⟨v, -, heff⟩ | ⟨a, -, rfl⟩
  · exact heff.ac
  · exact .inl rfl

/-- Settles O28: up to the pause point AC is kept, so a change comes from the instruction executed past it. -/
theorem onlyLoadAndAluWriteAc : Obligations.OnlyLoadAndAluWriteAc := by
  intro s t h hne
  rcases step_cases s with ⟨r, -, hstep⟩ | ⟨u, hp, hstep⟩ | ⟨u, hp, hstep⟩ <;> rw [hstep] at h
  · cases h
  · cases h
    exact absurd (toPausePoint_frame (.inl hp)).1 hne
  · obtain ⟨i, hi, -, hexec⟩ := execIr_next h
    rcases exec_ac hexec with hac | ⟨o, ho⟩
    · exact absurd (hac.trans (toPausePoint_frame (.inr hp)).1) hne
    · exact ⟨u, i, o, hp, hi, ho⟩

/-! ## The writers of PC (O29) -/

/-- `i` is a jump with the operand `o` that is taken when AC is `ac` (R170 to R172). -/
def TakenJump (i : Instr) (o : Operand) (ac : Word) : Prop :=
  i = .jump o ∨ (i = .jneg o ∧ sint ac < 0) ∨ (i = .jzero o ∧ ac = 0x0000#16)

/-- An opcode's rule keeps PC, or it is a taken jump's and copies OP there (R34). -/
theorem OpcodeEffect.pc {i : Instr} {s t : State} (h : OpcodeEffect i s t) :
    t.pc = s.pc ∨ (t.pc = s.op ∧ TakenJump i i.operand s.ac) := by
  cases i with
  | jump o => subst h; exact .inr ⟨rfl, .inl rfl⟩
  | jneg o =>
    obtain ⟨hneg, rfl⟩ | ⟨-, rfl⟩ := h
    · exact .inr ⟨rfl, .inr (.inl ⟨rfl, hneg⟩)⟩
    · exact .inl rfl
  | jzero o =>
    obtain ⟨hzero, rfl⟩ | ⟨-, rfl⟩ := h
    · exact .inr ⟨rfl, .inr (.inr ⟨rfl, hzero⟩)⟩
    · exact .inl rfl
  | store o => obtain ⟨-, rfl⟩ | ⟨-, rfl⟩ := h <;> exact .inl rfl
  | _ => subst h; exact .inl rfl

theorem exec_pc {i : Instr} {s t : State} (h : exec i s = .next t) :
    t.pc = s.pc ∨ (operandValue i.operand s = .ok t.pc ∧ t.op = t.pc ∧ TakenJump i i.operand s.ac) := by
  obtain ⟨u, hu, hcases⟩ := exec_cases i s
  rw [hu] at h
  cases h
  rcases hcases with ⟨v, hv, heff⟩ | ⟨a, -, rfl⟩
  · obtain ⟨-, hop, -⟩ := heff.host
    rcases heff.pc with hpc | ⟨hpc, hjump⟩
    · exact .inl hpc
    · exact .inr ⟨hv.trans (congrArg Except.ok hpc.symm), hop.trans hpc.symm, hjump⟩
  · exact .inl rfl

/-- Up to the pause point PC is kept, or fetch increments it without a wrap (R123). -/
theorem toPausePoint_pc {s u : State} (h : toPausePoint s = .ended u ∨ toPausePoint s = .passes u) :
    u.pc = s.pc ∨ (s.held = false ∧ uint s.pc < 512 ∧ uint u.pc = uint s.pc + 1) := by
  rcases h with h | h
  · obtain ⟨-, hcases⟩ := toPausePoint_ended h
    rcases hcases with ⟨-, -, rfl⟩ | ⟨-, -, -, rfl⟩ | ⟨hfree, hpc, -, -, rfl⟩ | ⟨-, c, rest, -, ⟨b, -, rfl⟩ | rfl⟩
    · exact .inl (by simp)
    · exact .inl (by simp)
    · exact .inr ⟨hfree, hpc, by simpa using uint_pc_succ hpc⟩
    · exact .inl rfl
    · exact .inl rfl
  · obtain ⟨-, -, -, -, -, -, -, -, -, -, hcases⟩ := toPausePoint_passes h
    rcases hcases with ⟨hfree, hpc, hu, -⟩ | ⟨-, hu, -⟩
    · exact .inr ⟨hfree, hpc, hu ▸ uint_pc_succ hpc⟩
    · exact .inl hu

/-- Settles O29: PC is written by the fetch before the pause point or by a taken jump after it. -/
theorem pcChangesOnlyByFetchAndJumps : Obligations.PcChangesOnlyByFetchAndJumps := by
  intro s t h
  rcases step_cases s with ⟨r, -, hstep⟩ | ⟨u, hp, hstep⟩ | ⟨u, hp, hstep⟩ <;> rw [hstep] at h
  · cases h
  · cases h
    exact (toPausePoint_pc (.inl hp)).imp_right .inl
  · obtain ⟨i, hi, hwf, hexec⟩ := execIr_next h
    rcases exec_pc hexec with hpc | ⟨hv, hop, hjump⟩
    · rw [hpc]
      exact (toPausePoint_pc (.inr hp)).imp_right .inl
    · have hac := (toPausePoint_frame (.inr hp)).1
      exact .inr (.inr ⟨u, i, i.operand, hp, hi, (operandValue_ok_iff hwf).1 hv, hop, hac ▸ hjump⟩)

/-! ## Construction and reset (O51, O52) -/

/-- Settles O51: every field is the one reset gives it, but memory, DBG and the commands, which construction takes. -/
theorem constructionGivesResetValues : Obligations.ConstructionGivesResetValues := by
  intro image interactive commands
  refine ⟨rfl, rfl, rfl, rfl, rfl, rfl, rfl, rfl, rfl, rfl, ?_⟩
  cases interactive <;> simp [State.construct]

theorem construct_inv {image : Memory} (interactive : Bool) (commands : List HostCommand) (hmem : image.wf = true) :
    (State.construct image interactive commands).Inv :=
  ⟨hmem, rfl, statusWf_of_running rfl rfl rfl rfl, holdWf_of_free rfl⟩

/-- Settles O52: construction sets no fault, no halt and no hold, and reset is one case of it. -/
theorem invariantHoldsAtReset : Obligations.InvariantHoldsAtReset :=
  ⟨fun _ interactive commands hmem => construct_inv interactive commands hmem, rfl, construct_inv false [] rfl⟩

end Sys2Proof.Machine

/-! # Proofs for 20_memory.md: presented addresses, the one writer of memory, a stored word fetched next -/

namespace Sys2Proof.Machine

/-! ## Presented addresses (O24) -/

/-- Settles O24: the integers of the statement are among those for which the port's verdict is known. -/
theorem presentedAddressKeepsItsVerdict : Obligations.PresentedAddressKeepsItsVerdict := by
  intro i s hlo hhi
  rcases memRead_w16 s (by omega : -65024 ≤ i) hhi with ⟨h0, h1, hread⟩ | ⟨hout, hread⟩
  · exact ⟨fun _ => hread, by omega⟩
  · exact ⟨by omega, fun _ => hread⟩

/-! ## The one writer of memory (O30) -/

/-- An opcode's rule keeps memory, or it is STORE's and writes AC into the cell that OP names (R76, R161). -/
theorem OpcodeEffect.mem {i : Instr} {s t : State} (h : OpcodeEffect i s t) :
    t.mem = s.mem ∨
      ((∃ o, i = .store o) ∧ uint s.op < 512 ∧ t.mem = s.mem.write (uint s.op) s.ac) := by
  cases i with
  | store o =>
    obtain ⟨hop, rfl⟩ | ⟨-, rfl⟩ := h
    · exact .inr ⟨⟨o, rfl⟩, hop, rfl⟩
    · exact .inl rfl
  | jneg o | jzero o => obtain ⟨-, rfl⟩ | ⟨-, rfl⟩ := h <;> exact .inl rfl
  | _ => subst h; exact .inl rfl

theorem exec_mem {i : Instr} {s t : State} (h : exec i s = .next t) :
    t.mem = s.mem ∨
      (∃ o, i = .store o ∧ operandValue o s = .ok t.op ∧ uint t.op < 512 ∧ t.mem = s.mem.write (uint t.op) s.ac) := by
  obtain ⟨u, hu, hcases⟩ := exec_cases i s
  rw [hu] at h
  cases h
  rcases hcases with ⟨v, hv, heff⟩ | ⟨a, -, rfl⟩
  · obtain ⟨-, hop, -⟩ := heff.host
    rw [State.setOp_op] at hop
    subst hop
    rcases heff.mem with hmem | ⟨⟨o, rfl⟩, hlt, hmem⟩
    · exact .inl hmem
    · exact .inr ⟨o, rfl, hv, hlt, hmem⟩
  · exact .inl rfl

/-- Settles O30: up to the pause point memory is kept, so a change is the write of the STORE executed past it. -/
theorem onlyStoreWritesMemory : Obligations.OnlyStoreWritesMemory := by
  intro s t hwf h hne
  rcases step_cases s with ⟨r, -, hstep⟩ | ⟨u, hp, hstep⟩ | ⟨u, hp, hstep⟩ <;> rw [hstep] at h
  · cases h
  · cases h
    obtain ⟨-, -, hmem⟩ := toPausePoint_frame (.inl hp)
    exact absurd hmem hne
  · obtain ⟨i, hi, hiwf, hexec⟩ := execIr_next h
    obtain ⟨hac, -, hmem⟩ := toPausePoint_frame (.inr hp)
    rcases exec_mem hexec with hkept | ⟨o, rfl, hv, hlt, hwrite⟩
    · exact absurd (hkept.trans hmem) hne
    · rw [hmem, hac] at hwrite
      refine ⟨u, o, hp, hi, (operandValue_ok_iff hiwf).1 hv, hlt, ?_, fun a ha => ?_⟩
      · rw [State.wordAt, hwrite, Memory.read_write_eq _ _ hwf]
      · rw [State.wordAt, hwrite, Memory.read_write_ne _ _ ha, State.wordAt]

/-! ## A stored word is fetched next (O39) -/

/-- STORE's next state when its operand names a cell that exists (R161). -/
theorem exec_store_of_lt {o : Operand} {s : State} {v : Word} (hv : operandValue o s = .ok v) (hlt : uint v < 512) :
    exec (.store o) s = .next { s with op := v, mem := s.mem.write (uint v) s.ac } := by
  obtain ⟨t, hexec, ⟨-, rfl⟩ | ⟨hge, -⟩⟩ := exec_ok (i := .store o) hv
  · exact hexec
  · exact absurd hlt (Nat.not_lt.2 hge)

/-- The pre-fetch check of a cycle that passes its pause point changes nothing (R223). -/
theorem preFetchCheck_of_passesPause {s : State} (h : s.passesPause) : preFetchCheck s = s := by
  rcases preFetchCheck_cases s with ⟨hwait, hhas, -⟩ | ⟨-, heq⟩
  · rcases h with hdis | ⟨-, hnot⟩
    · rw [hdis] at hwait; cases hwait
    · rw [hhas] at hnot; cases hnot
  · exact heq

theorem State.passesPause.dbg_ne_enabled {s : State} (h : s.passesPause) : s.dbg ≠ .enabled := by
  rcases h with hdbg | ⟨hdbg, -⟩ <;> rw [hdbg] <;> decide

/-- A free core whose host lets it pass executes, in one step, the instruction that the cell at PC holds (R120). -/
theorem step_of_passesPause {s : State} {w : Word} {i : Instr} (hrun : s.run = .running) (hfree : s.held = false)
    (hpass : s.passesPause) (hpc : uint s.pc < 512) (hw : s.wordAt (uint s.pc) = w) (hi : decode w = .ok i) :
    step s = exec i (s.latch w) := by
  subst hw
  have hpoint : toPausePoint s = .passes (s.latch (s.wordAt (uint s.pc))) := by
    rw [toPausePoint_of_free hrun hfree, startCycle_ok hpc hi, preFetchCheck_of_passesPause hpass,
      if_neg hpass.dbg_ne_enabled]
  rw [step, cycleStep, hpoint]
  simp only [execIr, State.latch_ir, hi]

/-- Settles O39: the cell at PC reads back as AC, and the DISABLED host lets the next cycle pass. -/
theorem storedWordIsFetchedNext : Obligations.StoredWordIsFetchedNext := by
  intro o s t i howf hwf hrun hfree hdbg hreads hpc hi h
  rw [exec_store_of_lt (operandValue_of_reads howf hreads) hpc] at h
  cases h
  exact ⟨rfl, step_of_passesPause hrun hfree (.inl hdbg) hpc (Memory.read_write_eq (uint s.pc) s.ac hwf) hi⟩

end Sys2Proof.Machine

/-! # Proofs for 30_encoding.md: decoder and encoder agree, the illegal words, assembled operands, the loader -/

namespace Sys2Proof

/-! ## The fields of an encoded word (O1) -/

section EncodedFields
variable {i : Instr} (h : i.wellFormed = true)
include h

theorem Instr.mag_lt : i.operand.mag < 512 := of_decide_eq_true h

theorem opcodeField_encode : opcodeField (encode i) = i.opcode := by
  have hcode := i.opcode_lt
  have hmode := i.operand.mode.code_lt
  have hmag := Instr.mag_lt h
  rw [opcodeField_eq, uint_encode h]
  omega

theorem magField_encode : magField (encode i) = i.operand.mag := by
  have hmag := Instr.mag_lt h
  rw [magField_eq, uint_encode h]
  omega

theorem modeField_encode : modeField (encode i) = i.operand.mode := by
  have hmode := i.operand.mode.code_lt
  have hmag := Instr.mag_lt h
  have hcode : uint (encode i) / 512 % 4 = i.operand.mode.code := by rw [uint_encode h]; omega
  rw [modeField_eq, hcode, modeOfCode_code]

theorem signField_encode : signField (encode i) = i.operand.sign := by
  have hcode := i.opcode_lt
  have hmode := i.operand.mode.code_lt
  have hmag := Instr.mag_lt h
  rw [signField_eq, uint_encode h]
  cases i.operand.sign with
  | plus => exact if_neg (by simp only [Sign.code]; omega)
  | minus => exact if_pos (by simp only [Sign.code]; omega)

theorem operandField_encode : operandField (encode i) = i.operand := by
  rw [operandField, signField_encode h, modeField_encode h, magField_encode h]

end EncodedFields

/-- Settles O1: no field of the encoded word spills into another, so the code table is asked for `i`'s own code and operand. -/
theorem decodeOfEncodeIsIdentity : Obligations.DecodeOfEncodeIsIdentity := by
  intro i h
  rw [decode, opcodeField_encode h, operandField_encode h, instrOfOpcode_opcode]

/-! ## The codes of a word's fields (O2) -/

theorem code_modeOfCode {c : Nat} (h : c < 4) : (modeOfCode c).code = c := by
  interval_cases c <;> rfl

theorem code_modeField (w : Word) : (modeField w).code = uint w / 512 % 4 := by
  rw [modeField_eq, code_modeOfCode (Nat.mod_lt _ (by decide))]

theorem code_signField (w : Word) : (signField w).code = uint w / 32768 := by
  have hw : uint w < 65536 := w.isLt
  rw [signField_eq]
  split <;> simp only [Sign.code] <;> omega

/-- The four fields partition the word's bits (R93, R95). -/
theorem uint_eq_fields (w : Word) :
    (signField w).code * 32768 + opcodeField w * 2048 + (modeField w).code * 512 + magField w = uint w := by
  rw [code_signField, opcodeField_eq, code_modeField, magField_eq]
  omega

/-- Settles O2: the encoded number is the sum of the word's own shifted fields, which is the word's number. -/
theorem encodeOfDecodeIsIdentity : Obligations.EncodeOfDecodeIsIdentity := by
  intro w i h
  have hwf := decode_wellFormed h
  obtain ⟨hcode, hoperand, -⟩ := decode_ok h
  refine ⟨hwf, BitVec.eq_of_toNat_eq ?_⟩
  calc uint (encode i)
      = (signField w).code * 32768 + opcodeField w * 2048 + (modeField w).code * 512 + magField w := by
        rw [uint_encode hwf, hcode, hoperand, operandField]
    _ = uint w := uint_eq_fields w

/-! ## The illegal words (O3) -/

theorem decode_eq_illegalOpcode_iff (w : Word) : decode w = .error .illegalOpcode ↔ opcodeField w = 15 := by
  rcases decode_isOk w with ⟨i, hi, hlt⟩ | ⟨herr, hcode⟩
  · simp [hi, hlt.ne]
  · simp [herr, hcode]

/-- Settles O3: the two ranges are the words whose bits 14 to 11 are code 15, one for each sign. -/
theorem illegalWordsAreExactlyOpcodeFifteen : Obligations.IllegalWordsAreExactlyOpcodeFifteen := by
  intro w
  have hw : uint w < 65536 := w.isLt
  rw [decode_eq_illegalOpcode_iff, opcodeField_eq]
  omega

end Sys2Proof

namespace Sys2Proof.Machine

/-! ## Assembled operands (O5) -/

theorem operandOfInt_of_le {m : Mode} {v : Int} (h : v.natAbs ≤ 511) :
    operandOfInt m v = some { sign := if v < 0 then .minus else .plus, mode := m, mag := v.natAbs } :=
  if_pos (Nat.lt_succ_of_le h)

theorem operandOfInt_of_gt {m : Mode} {v : Int} (h : 511 < v.natAbs) : operandOfInt m v = none :=
  if_neg (Nat.not_lt.2 h)

/-- Settles O5: sign and magnitude of the integer are those of the operand, and read back to the integer on either side of 0. -/
theorem assembledOperandHasItsInteger : Obligations.AssembledOperandHasItsInteger := by
  intro m v
  refine ⟨fun h => ⟨_, operandOfInt_of_le h, decide_eq_true (Nat.lt_succ_of_le h), rfl, ?_, ?_⟩, operandOfInt_of_gt⟩
  · by_cases hneg : v < 0 <;> simp only [Operand.signedAddress, hneg, if_true, if_false] <;> omega
  · by_cases hneg : v < 0 <;> simp [hneg]

/-! ## The loader (O6) -/

theorem loadInto_cons_iff {m m' : Memory} {l : ImageLine} {rest : List ImageLine} :
    loadInto m (l :: rest) = some m' ↔
      l.index < Config.memWords ∧ ∃ w, l.word = some w ∧ loadInto (m.write l.index w) rest = some m' := by
  rw [loadInto]
  by_cases hlt : l.index < Config.memWords
  · cases hw : l.word <;> simp [hlt]
  · simp [hlt]

/-- Loading a list that splits is loading its two parts one after the other. -/
theorem loadInto_append_iff {m m' : Memory} {xs ys : List ImageLine} :
    loadInto m (xs ++ ys) = some m' ↔ ∃ u, loadInto m xs = some u ∧ loadInto u ys = some m' := by
  induction xs generalizing m with
  | nil => simp [loadInto]
  | cons l xs ih =>
    simp only [List.cons_append, loadInto_cons_iff, ih]
    constructor
    · rintro ⟨hlt, w, hw, u, hxs, hys⟩
      exact ⟨u, ⟨hlt, w, hw, hxs⟩, hys⟩
    · rintro ⟨u, ⟨hlt, w, hw, hxs⟩, hys⟩
      exact ⟨hlt, w, hw, u, hxs, hys⟩

theorem loadInto_wf {m m' : Memory} {lines : List ImageLine} (hm : m.wf = true) (h : loadInto m lines = some m') :
    m'.wf = true := by
  induction lines generalizing m with
  | nil => cases h; exact hm
  | cons l rest ih =>
    obtain ⟨hlt, w, -, hrest⟩ := loadInto_cons_iff.1 h
    exact ih (Memory.write_wf w hm hlt) hrest

/-- A cell that no line names is left as it was. -/
theorem loadInto_read_of_unnamed {m m' : Memory} {lines : List ImageLine} {a : Nat} (h : loadInto m lines = some m')
    (ha : ∀ k ∈ lines, k.index ≠ a) : m'.read a = m.read a := by
  induction lines generalizing m with
  | nil => cases h; rfl
  | cons l rest ih =>
    obtain ⟨hl, hrest⟩ := List.forall_mem_cons.1 ha
    obtain ⟨-, w, -, hload⟩ := loadInto_cons_iff.1 h
    rw [ih hload hrest, Memory.read_write_ne m w hl.symm]

/-- Settles O6: the line writes its word into what the lines before it left, and a later line that names another cell keeps it. -/
theorem loadedImageHoldsItsLines : Obligations.LoadedImageHoldsItsLines := by
  intro before after l m h
  obtain ⟨u, hbefore, hrest⟩ := loadInto_append_iff.1 h
  obtain ⟨hlt, w, hw, hafter⟩ := loadInto_cons_iff.1 hrest
  have hu : u.wf = true := loadInto_wf rfl hbefore
  refine ⟨loadInto_wf rfl h, hlt, fun hlast => ?_, fun a ha => loadInto_read_of_unnamed h ha⟩
  rw [hw, loadInto_read_of_unnamed hafter hlast, Memory.read_write_eq l.index w hu]

end Sys2Proof.Machine

/-! # Proofs for 40_cycle.md: operand resolution, the faults of fetch, the hold after it, and when and what a step runs -/

namespace Sys2Proof.Machine

/-! ## Operand resolution (O22, O23) -/

/-- No operand both reads and faults: resolution answers only one of the two. -/
theorem OperandReads.not_faults {o : Operand} {s : State} {v a : Word} (hwf : o.wellFormed = true)
    (hreads : OperandReads o s v) : ¬ OperandFaults o s a := by
  intro hfaults
  have hok := operandValue_of_reads hwf hreads
  rw [operandValue_of_faults hwf hfaults] at hok
  cases hok

/-- Settles O22: the two cases are the two answers of the resolver, which every instruction asks first. -/
theorem everyInstructionResolvesItsOperand : Obligations.EveryInstructionResolvesItsOperand := by
  intro i s hwf
  rcases operand_reads_or_faults (o := i.operand) s hwf with ⟨v, hreads⟩ | ⟨a, hfaults⟩
  · obtain ⟨t, hexec, heff⟩ := exec_ok (operandValue_of_reads hwf hreads)
    obtain ⟨-, hop, -⟩ := heff.host
    exact .inl ⟨v, hreads, fun _ => OperandReads.not_faults hwf hreads, t, hexec, hop⟩
  · have herr := operandValue_of_faults hwf hfaults
    exact .inr ⟨a, hfaults, fun _ hreads => OperandReads.not_faults hwf hreads hfaults, operandValue_error_oob herr,
      exec_error herr⟩

/-- STAR's inner read is at the magnitude and never faults, so its verdict is that of the outer read (R129). -/
theorem operandValue_star {o : Operand} (s : State) (hwf : o.wellFormed = true) (hmode : o.mode = .starMode) :
    operandValue o s = memRead (s.wordAt o.mag) s := by
  simp only [operandValue, hmode, resolveStar, memRead_mag s hwf]

/-- Settles O23: the sign is not read, and the outer read has the verdict of the word in cell `m`. -/
theorem starIsDoubleIndirection : Obligations.StarIsDoubleIndirection := by
  intro sg m s hm
  rw [operandValue_star s (decide_eq_true hm) rfl]
  exact ⟨fun hlt => memRead_ok.2 ⟨hlt, rfl⟩, fun hge => memRead_error.2 ⟨hge, rfl⟩⟩

/-! ## A step from what its part before resolution answers -/

theorem step_of_ended {s t : State} (h : toPausePoint s = .ended t) : step s = .next t := by
  rw [step, cycleStep, h]

theorem step_of_passes {s u : State} {i : Instr} (h : toPausePoint s = .passes u) (hir : decode u.ir = .ok i) :
    step s = exec i u := by
  rw [step, cycleStep, h]
  simp only [execIr, hir]

/-! ## The faults of fetch (O35, O36) -/

/-- A breakpoint is an address that exists, so the pre-fetch check never finds a PC outside memory in the set (R223, R232). -/
theorem preFetchCheck_of_oob {s : State} (hpc : 512 ≤ uint s.pc) : preFetchCheck s = s := by
  rcases preFetchCheck_cases s with ⟨-, hhas, -⟩ | ⟨-, heq⟩
  · obtain ⟨b, -, hb⟩ := (Breakpoints.has_iff s.bp s.pc).1 hhas
    exact absurd b.isLt (by omega)
  · exact heq

theorem startCycle_of_oob {s : State} (hpc : 512 ≤ uint s.pc) : startCycle s = .ended (s.raise .fetchOob s.pc) := by
  rw [startCycle, preFetchCheck_of_oob hpc]
  rcases fetch_cases s with ⟨-, hf⟩ | ⟨hlt, -⟩ | ⟨hlt, -⟩
  · rw [hf]
  · omega
  · omega

theorem startCycle_of_illegal {s : State} (hpc : uint s.pc < 512)
    (hw : decode (s.wordAt (uint s.pc)) = .error .illegalOpcode) :
    startCycle s = .ended ((preFetchCheck s).raise .illegalOpcode s.pc) := by
  rw [startCycle]
  rcases fetch_cases (preFetchCheck s) with ⟨hge, -⟩ | ⟨-, -, hf⟩ | ⟨-, i, hi, -⟩
  · rw [preFetchCheck_pc] at hge
    omega
  · rw [hf, preFetchCheck_pc]
  · rw [preFetchCheck_pc, preFetchCheck_wordAt, hw] at hi
    cases hi

/-- Settles O35: the pre-fetch check changes nothing outside memory, and the fetch ends the step. -/
theorem fetchOutOfBoundsFaults : Obligations.FetchOutOfBoundsFaults := by
  intro s hrun hfree hpc
  exact step_of_ended ((toPausePoint_of_free hrun hfree).trans (startCycle_of_oob hpc))

/-- Settles O36: the fetch ends the step in the state that the pre-fetch check leaves, which differs from `s` in DBG at most. -/
theorem illegalOpcodeFaultsAtFetch : Obligations.IllegalOpcodeFaultsAtFetch := by
  intro s hrun hfree hpc hcode
  have hw : decode (s.wordAt (uint s.pc)) = .error .illegalOpcode :=
    (decode_eq_illegalOpcode_iff _).2 ((opcodeField_eq _).trans hcode)
  have hstep := step_of_ended ((toPausePoint_of_free hrun hfree).trans (startCycle_of_illegal hpc hw))
  rw [preFetchCheck_eq] at hstep
  refine ⟨(preFetchCheck s).dbg, hstep, fun hne => ?_⟩
  rcases preFetchCheck_cases s with ⟨hwait, -, heq⟩ | ⟨-, heq⟩
  · exact ⟨hwait, congrArg State.dbg heq⟩
  · exact absurd (congrArg State.dbg heq) hne

/-! ## The hold after fetch (O42) -/

/-- The hosts that hold a cycle are ENABLED after the pre-fetch check, which has changed nothing else (R223). -/
theorem preFetchCheck_of_holds {s : State}
    (h : s.dbg = .enabled ∨ (s.dbg = .waitingForBreakpoint ∧ ∃ b ∈ s.bp, b.val = uint s.pc)) :
    preFetchCheck s = s.setDbg .enabled := by
  have hdbg : (preFetchCheck s).dbg = .enabled := by
    rcases preFetchCheck_cases s with ⟨-, -, heq⟩ | ⟨hnot, heq⟩
    · rw [heq, State.setDbg_dbg]
    · rcases h with hen | ⟨hwait, b, hb, hpc⟩
      · rw [heq, hen]
      · exact absurd ⟨hwait, (Breakpoints.has_iff s.bp s.pc).2 ⟨b, hb, hpc.symm⟩⟩ hnot
  rw [preFetchCheck_eq, hdbg]

/-- Settles O42: after the pre-fetch check DBG is ENABLED, so the fetched word is latched and the step ends in the hold. -/
theorem enabledHostHoldsAfterFetch : Obligations.EnabledHostHoldsAfterFetch := by
  intro s i hrun hfree hpc hw hhost
  apply step_of_ended
  rw [toPausePoint_of_free hrun hfree, startCycle_ok hpc hw, preFetchCheck_of_holds hhost]
  exact if_pos rfl

/-! ## When the core steps (O33) -/

theorem toPausePoint_of_unanswered {s : State} (hrun : s.run = .running) (hheld : s.held = true)
    (hnil : s.commands = []) : toPausePoint s = .stopped .holdUnanswered := by
  simp [toPausePoint, hrun, hheld, answerHold, hnil]

theorem obey_ne_stopped (c : HostCommand) (s : State) (r : Fault) : obey c s ≠ .stopped r := by
  cases c <;> exact Progress.noConfusion

theorem startCycle_ne_stopped (s : State) (r : Fault) : startCycle s ≠ .stopped r := by
  rw [startCycle]
  cases fetch (preFetchCheck s) with
  | error t => exact Progress.noConfusion
  | ok t => by_cases hdbg : t.dbg = .enabled <;> simp [hdbg]

/-- Nothing before resolution stops a running core but a hold without an answer (R231). -/
theorem toPausePoint_ne_stopped {s : State} (hrun : s.run = .running) (hanswer : s.held = true → s.commands ≠ [])
    (r : Fault) : toPausePoint s ≠ .stopped r := by
  cases hheld : s.held with
  | false =>
    rw [toPausePoint_of_free hrun hheld]
    exact startCycle_ne_stopped s r
  | true =>
    obtain ⟨c, rest, hc⟩ := List.exists_cons_of_ne_nil (hanswer hheld)
    rw [toPausePoint_of_held hrun hheld hc]
    exact obey_ne_stopped c _ r

theorem run_of_step {s t : State} (h : step s = .next t) : s.run = .running := by
  rcases step_cases s with ⟨r, -, hstep⟩ | ⟨u, hp, -⟩ | ⟨u, hp, -⟩
  · rw [hstep] at h
    cases h
  · exact (toPausePoint_ended hp).1
  · exact (toPausePoint_passes hp).1

/-- What passes the pause point has an instruction in IR: fetch has decoded it, in this step or before the hold (R122, R226). -/
theorem toPausePoint_passes_decodes {s u : State} (hhold : s.holdWf = true) (h : toPausePoint s = .passes u) :
    ∃ i, decode u.ir = .ok i := by
  obtain ⟨-, -, -, -, -, -, -, -, -, -, ⟨-, -, -, -, -, -, -, hi⟩ | ⟨hheld, -, hir⟩⟩ := toPausePoint_passes h
  · exact hi
  · obtain ⟨-, -, hcode, -⟩ := (holdWf_iff_of_held hheld).1 hhold
    rcases decode_isOk u.ir with ⟨i, hi, -⟩ | ⟨-, hillegal⟩
    · exact ⟨i, hi⟩
    · rw [hir] at hillegal
      exact absurd hillegal hcode

/-- Settles O33: a step that is not stopped ends at the pause point or executes IR, and `exec` always answers a next state. -/
theorem runningCoreAlwaysSteps : Obligations.RunningCoreAlwaysSteps := by
  rintro s ⟨-, -, -, hhold⟩
  constructor
  · rintro ⟨t, hstep⟩
    have hrun := run_of_step hstep
    refine ⟨hrun, fun hheld hnil => ?_⟩
    rw [step, cycleStep, toPausePoint_of_unanswered hrun hheld hnil] at hstep
    cases hstep
  · rintro ⟨hrun, hanswer⟩
    cases hp : toPausePoint s with
    | stopped r => exact absurd hp (toPausePoint_ne_stopped hrun hanswer r)
    | ended t => exact ⟨t, step_of_ended hp⟩
    | passes u =>
      obtain ⟨i, hi⟩ := toPausePoint_passes_decodes hhold hp
      obtain ⟨t, hexec, -⟩ := exec_cases i u
      exact ⟨t, (step_of_passes hp hi).trans hexec⟩

/-! ## What a step runs (O34) -/

/-- A held core that obeys a resuming command executes the instruction in IR (R225, R226). -/
theorem step_of_resume {s u : State} {c : HostCommand} {rest : List HostCommand} {i : Instr} (hrun : s.run = .running)
    (hheld : s.held = true) (hc : s.commands = c :: rest) (hobey : obey c (s.setCommands rest) = .passes u)
    (hir : decode u.ir = .ok i) : step s = exec i u :=
  step_of_passes ((toPausePoint_of_held hrun hheld hc).trans hobey) hir

/-- Settles O34: a free core passes with what fetch latched, a held one with what the command leaves of its state. -/
theorem stepRunsDecodedInstruction : Obligations.StepRunsDecodedInstruction := by
  constructor
  · intro s i hrun hfree hpc hw hpass
    exact step_of_passesPause hrun hfree hpass hpc rfl hw
  · intro s i rest hrun hheld hir
    exact ⟨fun hc => step_of_resume hrun hheld hc rfl hir, fun hc => step_of_resume hrun hheld hc rfl hir,
      fun hc => step_of_resume hrun hheld hc rfl hir⟩

end Sys2Proof.Machine

/-! # Proofs for 41_system.md: NULL and STOP, the frame of the instructions that store nothing -/

namespace Sys2Proof.Machine

/-! ## The parts every rule of an instruction shares: its encoding and its operand's fault -/

/-- The words of a code decode to what the code table answers for it (R93, R96). -/
theorem encodedAs_of_instrOfOpcode {mk : Operand → Instr} {code : Nat}
    (hmk : ∀ o, instrOfOpcode code o = some (mk o)) : EncodedAs mk code := by
  intro w hcode
  rw [decode, opcodeField_eq, hcode, hmk, operandField, signField_eq, modeField_eq, magField_eq]

/-- An instruction built from an operand faults where that operand cannot be read (R125, R131). -/
theorem faultsOnBadOperand_of_operand {mk : Operand → Instr} (hmk : ∀ o, (mk o).operand = o) :
    FaultsOnBadOperand mk := by
  intro o s a hwf hfaults
  have herr : operandValue (mk o).operand s = .error a := by rw [hmk, operandValue_of_faults hwf hfaults]
  exact exec_error herr

/-! ## NULL and STOP (O7, O8) -/

theorem exec_null_of_ok {o : Operand} {s : State} {v : Word} (hv : operandValue o s = .ok v) :
    exec (.null o) s = .next (s.setOp v) := by
  obtain ⟨t, hexec, rfl⟩ := exec_ok (i := .null o) hv
  exact hexec

theorem exec_stop_of_ok {o : Operand} {s : State} {v : Word} (hv : operandValue o s = .ok v) :
    exec (.stop o) s = .next ((s.setOp v).halt .stop) := by
  obtain ⟨t, hexec, rfl⟩ := exec_ok (i := .stop o) hv
  exact hexec

/-- Settles O7: NULL's rule adds nothing to the OP that resolution writes. -/
theorem nullChangesNoState : Obligations.NullChangesNoState :=
  ⟨encodedAs_of_instrOfOpcode fun _ => rfl,
    fun _ _ _ hwf hreads => exec_null_of_ok (operandValue_of_reads hwf hreads),
    faultsOnBadOperand_of_operand fun _ => rfl⟩

/-- Settles O8: STOP's rule halts the state in which resolution has written OP. -/
theorem stopHaltsTheCore : Obligations.StopHaltsTheCore :=
  ⟨encodedAs_of_instrOfOpcode fun _ => rfl,
    fun _ _ _ hwf hreads => exec_stop_of_ok (operandValue_of_reads hwf hreads),
    faultsOnBadOperand_of_operand fun _ => rfl⟩

/-! ## The frame of NULL, STOP, LOAD, JUMP, JNEG and JZERO (O26) -/

/-- An opcode's rule keeps AC, or it is LOAD's and copies OP there, or it is an ALU instruction's (R31). -/
theorem OpcodeEffect.ac_value {i : Instr} {s t : State} (h : OpcodeEffect i s t) :
    t.ac = s.ac ∨ (i = .load i.operand ∧ t.ac = s.op) ∨ 7 ≤ i.opcode := by
  cases i with
  | load o => subst h; exact .inr (.inl ⟨rfl, rfl⟩)
  | null o | stop o | jump o => subst h; exact .inl rfl
  | store o | jneg o | jzero o => obtain ⟨-, rfl⟩ | ⟨-, rfl⟩ := h <;> exact .inl rfl
  | _ => exact .inr (.inr (by simp [Instr.opcode]))

/-- Executing an instruction below the ALU's codes keeps AC, or it is a LOAD and AC is its operand (R160). -/
theorem exec_ac_of_lt {i : Instr} {s t : State} (hlt : i.opcode < 7) (h : exec i s = .next t) :
    t.ac = s.ac ∨ (i = .load i.operand ∧ operandValue i.operand s = .ok t.ac) := by
  obtain ⟨u, hu, hcases⟩ := exec_cases i s
  rw [hu] at h
  cases h
  rcases hcases with ⟨v, hv, heff⟩ | ⟨a, -, rfl⟩
  · rcases heff.ac_value with hac | ⟨hload, hac⟩ | hge
    · exact .inl hac
    · exact .inr ⟨hload, hv.trans (congrArg Except.ok hac.symm)⟩
    · omega
  · exact .inl rfl

theorem eq_stop_of_opcode {i : Instr} (h : i.opcode = 1) : i = .stop i.operand := by
  have hi := instrOfOpcode_opcode i
  rw [h] at hi
  exact (Option.some.inj hi).symm

/-- What an instruction other than STORE does to the status fields: nothing, or STOP's halt (R151), or the fault of its
operand, which leaves OP unwritten (R210). -/
theorem exec_status_of_ne_store {i : Instr} {s t : State} (hne : i.opcode ≠ 3) (h : exec i s = .next t) :
    (t.run = s.run ∧ t.haltReason = s.haltReason ∧ t.faultCause = s.faultCause ∧ t.faultAddr = s.faultAddr) ∨
    (i = .stop i.operand ∧ t.run = .halted ∧ t.haltReason = .stop ∧ t.faultCause = s.faultCause ∧
      t.faultAddr = s.faultAddr) ∨
    (operandValue i.operand s = .error t.faultAddr ∧ t.run = .faulted ∧ t.faultCause = .operandOob ∧
      t.haltReason = s.haltReason ∧ t.op = s.op) := by
  obtain ⟨u, hu, hcases⟩ := exec_cases i s
  rw [hu] at h
  cases h
  rcases hcases with ⟨v, -, heff⟩ | ⟨a, ha, rfl⟩
  · rcases heff.status with hkept | ⟨hstop, rfl⟩ | ⟨hstore, -⟩
    · exact .inl hkept
    · exact .inr (.inl ⟨eq_stop_of_opcode hstop, rfl, rfl, rfl, rfl⟩)
    · exact absurd hstore hne
  · exact .inr (.inr ⟨ha, rfl, rfl, rfl, rfl⟩)

theorem exec_mem_of_ne_store {i : Instr} {s t : State} (hne : i.opcode ≠ 3) (h : exec i s = .next t) :
    t.mem = s.mem := by
  rcases exec_mem h with hmem | ⟨o, rfl, -⟩
  · exact hmem
  · exact absurd rfl hne

theorem TakenJump.mem_jumps {i : Instr} {o : Operand} {ac : Word} (h : TakenJump i o ac) :
    i ∈ [Instr.jump o, .jneg o, .jzero o] := by
  rcases h with rfl | ⟨rfl, -⟩ | ⟨rfl, -⟩ <;> simp

/-- The six instructions, by their codes: below the ALU's and not STORE's. -/
theorem nonStoring_opcode {i : Instr} {o : Operand}
    (hi : i ∈ [Instr.null o, .stop o, .load o, .jump o, .jneg o, .jzero o]) :
    i.operand = o ∧ i.opcode < 7 ∧ i.opcode ≠ 3 := by
  simp only [List.mem_cons, List.not_mem_nil, or_false] at hi
  rcases hi with rfl | rfl | rfl | rfl | rfl | rfl <;> simp [Instr.operand, Instr.opcode]

/-- Settles O26: each field has its writers among all instructions, and the codes of the six leave those the statement names. -/
theorem nonStoringInstructionsFrame : Obligations.NonStoringInstructionsFrame := by
  intro i o s t hwf hi h
  obtain ⟨rfl, hlt, hne⟩ := nonStoring_opcode hi
  obtain ⟨hir, hheld, hdbg, hbp, hcommands⟩ := exec_host h
  have hmem := exec_mem_of_ne_store hne h
  have hcells : ∀ a, t.wordAt a = s.wordAt a := fun a => congrArg (Memory.read · a) hmem
  refine ⟨hir, hcells, hmem, hheld, hdbg, hbp, hcommands, ?ac, ?pc, ?status⟩
  case ac =>
    rw [← operandValue_ok_iff hwf]
    exact exec_ac_of_lt hlt h
  case pc =>
    rcases exec_pc h with hpc | ⟨hv, -, hjump⟩
    · exact .inl hpc
    · exact .inr ⟨hjump.mem_jumps, (operandValue_ok_iff hwf).1 hv⟩
  case status =>
    rw [← operandValue_error_iff hwf]
    exact exec_status_of_ne_store hne h

end Sys2Proof.Machine

/-! # Proofs for 42_load_store.md: LOAD and STORE, STORE's frame, a stored value loaded again -/

namespace Sys2Proof.Machine

/-! ## LOAD and STORE (O9, O10) -/

/-- LOAD's next state when its operand reads (R160). -/
theorem exec_load_of_ok {o : Operand} {s : State} {v : Word} (hv : operandValue o s = .ok v) :
    exec (.load o) s = .next { s with op := v, ac := v } := by
  obtain ⟨t, hexec, rfl⟩ := exec_ok (i := .load o) hv
  exact hexec

/-- STORE's next state when its operand is no address of a cell (R161). -/
theorem exec_store_of_ge {o : Operand} {s : State} {v : Word} (hv : operandValue o s = .ok v) (hge : 512 ≤ uint v) :
    exec (.store o) s = .next ((s.setOp v).raise .storeOob v) := by
  obtain ⟨t, hexec, ⟨hlt, -⟩ | ⟨-, rfl⟩⟩ := exec_ok (i := .store o) hv
  · exact absurd hge (Nat.not_le.2 hlt)
  · exact hexec

/-- Settles O9: LOAD's rule copies to AC the OP that resolution writes. -/
theorem loadCopiesOperandToAc : Obligations.LoadCopiesOperandToAc :=
  ⟨encodedAs_of_instrOfOpcode fun _ => rfl,
    fun _ _ _ hwf hreads => exec_load_of_ok (operandValue_of_reads hwf hreads),
    faultsOnBadOperand_of_operand fun _ => rfl⟩

/-- Settles O10: below 512 the next memory is one `Memory.write`, whose laws give the cells; from 512 on STORE faults. -/
theorem storeWritesAcAtOperand : Obligations.StoreWritesAcAtOperand := by
  refine ⟨encodedAs_of_instrOfOpcode fun _ => rfl, ?inside, ?outside, faultsOnBadOperand_of_operand fun _ => rfl⟩
  case inside =>
    intro o s v howf hwf hreads hlt
    exact ⟨s.mem.write (uint v) s.ac, exec_store_of_lt (operandValue_of_reads howf hreads) hlt,
      Memory.write_wf s.ac hwf hlt, Memory.read_write_eq (uint v) s.ac hwf,
      fun a ha => Memory.read_write_ne s.mem s.ac ha⟩
  case outside =>
    intro o s v howf hreads hge
    exact exec_store_of_ge (operandValue_of_reads howf hreads) hge

/-! ## The frame of STORE (O27) -/

/-- STORE keeps AC, PC and the halt reason, whichever of its next states it reaches (R161). -/
theorem exec_store_keeps {o : Operand} {s t : State} (h : exec (.store o) s = .next t) :
    t.ac = s.ac ∧ t.pc = s.pc ∧ t.haltReason = s.haltReason := by
  obtain ⟨u, hu, hcases⟩ := exec_cases (.store o) s
  rw [hu] at h
  cases h
  rcases hcases with ⟨v, -, ⟨-, rfl⟩ | ⟨-, rfl⟩⟩ | ⟨a, -, rfl⟩ <;> exact ⟨rfl, rfl, rfl⟩

/-- Settles O27: the kept registers hold for every operand; OP, memory and the status fields follow from what the operand is. -/
theorem storeFrame : Obligations.StoreFrame := by
  intro o s t _ h
  obtain ⟨hac, hpc, hreason⟩ := exec_store_keeps h
  obtain ⟨hir, hheld, hdbg, hbp, hcommands⟩ := exec_host h
  refine ⟨hac, hpc, hir, hreason, hheld, hdbg, hbp, hcommands, ?reads, ?faults⟩
  case reads =>
    intro v hv
    rcases Nat.lt_or_ge (uint v) 512 with hlt | hge
    · rw [exec_store_of_lt hv hlt] at h
      cases h
      exact ⟨fun a ha => Memory.read_write_ne s.mem s.ac ha, rfl, fun hge => absurd hlt (Nat.not_lt.2 hge),
        fun _ => ⟨rfl, rfl, rfl⟩⟩
    · rw [exec_store_of_ge hv hge] at h
      cases h
      exact ⟨fun _ _ => rfl, rfl, fun _ => rfl, fun hlt => absurd hge (Nat.not_le.2 hlt)⟩
  case faults =>
    intro a ha
    rw [exec_error (i := .store o) ha] at h
    cases h
    exact ⟨rfl, rfl⟩

/-! ## A stored value is loaded again (O40) -/

theorem uint_w16_of_lt {a : Nat} (ha : a < 512) : uint (w16 a) = a := by
  rw [uint_w16_of_range (by omega) (by omega), Int.toNat_natCast]

/-- `@a` reads the cell that `.a` names (R127, R128). -/
theorem operandValue_at_of_lt {a : Nat} (s : State) (ha : a < 512) :
    operandValue { sign := .plus, mode := .atMode, mag := a } s = .ok (s.wordAt a) :=
  memRead_ok.2 ⟨(uint_w16_of_lt ha).trans_lt ha, congrArg s.wordAt (uint_w16_of_lt ha).symm⟩

/-- Settles O40: `STORE .a` writes AC into cell `a`, and `LOAD @a` reads that cell back. -/
theorem storeThenLoadReturnsTheValue : Obligations.StoreThenLoadReturnsTheValue := by
  intro a s t ha hwf h
  have huint : uint (w16 a) = a := uint_w16_of_lt ha
  have hdot : operandValue { sign := .plus, mode := .dotMode, mag := a } s = .ok (w16 a) := rfl
  rw [exec_store_of_lt hdot (huint.trans_lt ha), huint] at h
  cases h
  refine ⟨exec_load_of_ok ((operandValue_at_of_lt _ ha).trans (congrArg Except.ok ?_)), rfl⟩
  exact Memory.read_write_eq a s.ac hwf

end Sys2Proof.Machine

/-! # Proofs for 43_jumps.md: JUMP, JNEG and JZERO, a jump out of memory -/

namespace Sys2Proof.Machine

/-! ## A jump that is taken, and one that is not (O11, O12, O13) -/

/-- The next state of a taken jump when its operand reads; the target is not checked (R170 to R172, R174). -/
theorem exec_of_takenJump {i : Instr} {o : Operand} {s : State} {v : Word} (hjump : TakenJump i o s.ac)
    (hv : operandValue o s = .ok v) : exec i s = .next { s with op := v, pc := v } := by
  rcases hjump with rfl | ⟨rfl, hneg⟩ | ⟨rfl, hzero⟩
  · obtain ⟨t, hexec, rfl⟩ := exec_ok (i := .jump o) hv
    exact hexec
  · obtain ⟨t, hexec, ⟨-, rfl⟩ | ⟨hnonneg, -⟩⟩ := exec_ok (i := .jneg o) hv
    · exact hexec
    · exact absurd hneg (Int.not_lt.2 hnonneg)
  · obtain ⟨t, hexec, ⟨-, rfl⟩ | ⟨hne, -⟩⟩ := exec_ok (i := .jzero o) hv
    · exact hexec
    · exact absurd hzero hne

/-- JNEG's next state when AC is not negative: PC is left as fetch wrote it (R171). -/
theorem exec_jneg_of_nonneg {o : Operand} {s : State} {v : Word} (hv : operandValue o s = .ok v)
    (hnonneg : 0 ≤ sint s.ac) : exec (.jneg o) s = .next { s with op := v } := by
  obtain ⟨t, hexec, ⟨hneg, -⟩ | ⟨-, rfl⟩⟩ := exec_ok (i := .jneg o) hv
  · exact absurd hneg (Int.not_lt.2 hnonneg)
  · exact hexec

/-- JZERO's next state when AC is not the all-zero word: PC is left as fetch wrote it (R172). -/
theorem exec_jzero_of_ne_zero {o : Operand} {s : State} {v : Word} (hv : operandValue o s = .ok v)
    (hne : s.ac ≠ 0x0000#16) : exec (.jzero o) s = .next { s with op := v } := by
  obtain ⟨t, hexec, ⟨hzero, -⟩ | ⟨-, rfl⟩⟩ := exec_ok (i := .jzero o) hv
  · exact absurd hzero hne
  · exact hexec

/-- Settles O11: JUMP is a jump that is taken whatever AC is. -/
theorem jumpSetsPcToOperand : Obligations.JumpSetsPcToOperand :=
  ⟨encodedAs_of_instrOfOpcode fun _ => rfl,
    fun _ _ _ hwf hreads => exec_of_takenJump (.inl rfl) (operandValue_of_reads hwf hreads),
    faultsOnBadOperand_of_operand fun _ => rfl⟩

/-- Settles O12: JNEG resolves its operand first, and then the sign of AC says whether it is a taken jump. -/
theorem jnegJumpsOnNegativeAc : Obligations.JnegJumpsOnNegativeAc := by
  refine ⟨encodedAs_of_instrOfOpcode fun _ => rfl, fun o s v hwf hreads => ?_,
    faultsOnBadOperand_of_operand fun _ => rfl⟩
  have hv := operandValue_of_reads hwf hreads
  exact ⟨fun hneg => exec_of_takenJump (.inr (.inl ⟨rfl, hneg⟩)) hv, exec_jneg_of_nonneg hv⟩

/-- Settles O13: JZERO resolves its operand first, and then the all-zero word in AC makes it a taken jump. -/
theorem jzeroJumpsOnZeroAc : Obligations.JzeroJumpsOnZeroAc := by
  refine ⟨encodedAs_of_instrOfOpcode fun _ => rfl, fun o s v hwf hreads => ?_,
    faultsOnBadOperand_of_operand fun _ => rfl⟩
  have hv := operandValue_of_reads hwf hreads
  exact ⟨fun hzero => exec_of_takenJump (.inr (.inr ⟨rfl, hzero⟩)) hv, exec_jzero_of_ne_zero hv⟩

/-! ## A jump out of memory (O38) -/

/-- Settles O38: the taken jump leaves a free running core with the operand in PC, whose next fetch faults there (R121). -/
theorem outOfRangeJumpFaultsAtNextFetch : Obligations.OutOfRangeJumpFaultsAtNextFetch := by
  intro i o s v hwf hreads hoob hrun hfree hjump
  exact ⟨_, exec_of_takenJump hjump (operandValue_of_reads hwf hreads), hrun, rfl,
    fetchOutOfBoundsFaults { s with op := v, pc := v } hrun hfree hoob⟩

end Sys2Proof.Machine

/-! # Proofs for 44_alu.md: the eight ALU instructions, their common frame, and negation by NOT and ADD -/

namespace Sys2Proof.Machine

/-! ## What the eight instructions share -/

/-- The two next states of an ALU instruction, whichever function `f` of AC and OP it computes (R180). -/
theorem execAlu_cases (f : Word → Word → Word) (o : Operand) (s : State) :
    (∃ v, operandValue o s = .ok v ∧ execAlu f o s = .next ((s.setOp v).setAc (f s.ac v))) ∨
    (∃ a, operandValue o s = .error a ∧ execAlu f o s = .next (s.raise .operandOob a)) :=
  withOperand_cases o s _

/-- The next state when the operand reads: AC is computed from the old AC (R180). -/
theorem execAlu_of_ok {f : Word → Word → Word} {o : Operand} {s : State} {v : Word} (hv : operandValue o s = .ok v) :
    execAlu f o s = .next { s with op := v, ac := f s.ac v } :=
  withOperand_ok _ hv

theorem execAlu_of_reads {f : Word → Word → Word} {o : Operand} {s : State} {v : Word} (hwf : o.wellFormed = true)
    (hreads : OperandReads o s v) : execAlu f o s = .next { s with op := v, ac := f s.ac v } :=
  execAlu_of_ok (operandValue_of_reads hwf hreads)

/-! ## ADD and SUB (O14, O15) -/

theorem w16_sint_add_eq_uint (a b : Word) : w16 (sint a + sint b) = w16 (uint a + uint b) := by
  simp only [w16_add, w16_sint, w16_uint]

theorem w16_sint_sub_eq_uint (a b : Word) : w16 (sint a - sint b) = w16 ((uint a : Int) - (uint b : Int)) := by
  simp only [w16_sub, w16_sint, w16_uint]

/-- Settles O14: `w16` turns the integer sum into the sum of words, on either reading of them. -/
theorem addWrapsModuloWord : Obligations.AddWrapsModuloWord :=
  ⟨encodedAs_of_instrOfOpcode fun _ => rfl,
    fun _ s v hwf hreads => ⟨execAlu_of_reads hwf hreads, w16_sint_add_eq_uint s.ac v⟩,
    faultsOnBadOperand_of_operand fun _ => rfl⟩

/-- Settles O15: `w16` turns the integer difference into the difference of words, on either reading of them. -/
theorem subWrapsModuloWord : Obligations.SubWrapsModuloWord :=
  ⟨encodedAs_of_instrOfOpcode fun _ => rfl,
    fun _ s v hwf hreads => ⟨execAlu_of_reads hwf hreads, w16_sint_sub_eq_uint s.ac v⟩,
    faultsOnBadOperand_of_operand fun _ => rfl⟩

/-! ## AND, OR, XOR and NOT (O16, O17, O18, O19) -/

theorem aluAnd_bit (ac op : Word) (k : Nat) : (aluAnd ac op).getLsbD k = (ac.getLsbD k && op.getLsbD k) :=
  BitVec.getLsbD_and

theorem aluOr_bit (ac op : Word) (k : Nat) : (aluOr ac op).getLsbD k = (ac.getLsbD k || op.getLsbD k) :=
  BitVec.getLsbD_or

theorem aluXor_bit (ac op : Word) (k : Nat) : (aluXor ac op).getLsbD k = (ac.getLsbD k ^^ op.getLsbD k) :=
  BitVec.getLsbD_xor

theorem aluNot_bit (ac op : Word) {k : Nat} (hk : k < 16) : (aluNot ac op).getLsbD k = !(ac.getLsbD k) := by
  rw [aluNot, BitVec.getLsbD_not, decide_eq_true hk, Bool.true_and]

/-- Settles O16: the new AC is `aluAnd`, whose bits are known. -/
theorem andIsBitwise : Obligations.AndIsBitwise :=
  ⟨encodedAs_of_instrOfOpcode fun _ => rfl,
    fun _ s v hwf hreads => ⟨aluAnd s.ac v, execAlu_of_reads hwf hreads, fun k _ => aluAnd_bit s.ac v k⟩,
    faultsOnBadOperand_of_operand fun _ => rfl⟩

/-- Settles O17: the new AC is `aluOr`, whose bits are known. -/
theorem orIsBitwise : Obligations.OrIsBitwise :=
  ⟨encodedAs_of_instrOfOpcode fun _ => rfl,
    fun _ s v hwf hreads => ⟨aluOr s.ac v, execAlu_of_reads hwf hreads, fun k _ => aluOr_bit s.ac v k⟩,
    faultsOnBadOperand_of_operand fun _ => rfl⟩

/-- Settles O18: the new AC is `aluXor`, whose bits are known. -/
theorem xorIsBitwise : Obligations.XorIsBitwise :=
  ⟨encodedAs_of_instrOfOpcode fun _ => rfl,
    fun _ s v hwf hreads => ⟨aluXor s.ac v, execAlu_of_reads hwf hreads, fun k _ => aluXor_bit s.ac v k⟩,
    faultsOnBadOperand_of_operand fun _ => rfl⟩

/-- Settles O19: the new AC is `aluNot`, the complement of the old one, which is the two's complement less one. -/
theorem notComplementsAc : Obligations.NotComplementsAc :=
  ⟨encodedAs_of_instrOfOpcode fun _ => rfl,
    fun _ s v hwf hreads =>
      ⟨aluNot s.ac v, execAlu_of_reads hwf hreads, fun _ hk => aluNot_bit s.ac v hk, aluNot_eq s.ac v⟩,
    faultsOnBadOperand_of_operand fun _ => rfl⟩

/-! ## SHL and SHR (O20, O21) -/

theorem aluShl_of_lt (ac : Word) {op : Word} (h : uint op < 16) : aluShl ac op = w16 (uint ac * 2 ^ uint op) :=
  if_neg (Nat.not_le.2 h)

theorem aluShl_of_ge (ac : Word) {op : Word} (h : 16 ≤ uint op) : aluShl ac op = 0x0000#16 := if_pos h

/-- Settles O20: the amount decides between the two values of `aluShl`, and its bits are known for every amount. -/
theorem shlShiftsLeftByOperand : Obligations.ShlShiftsLeftByOperand :=
  ⟨encodedAs_of_instrOfOpcode fun _ => rfl,
    fun _ s v hwf hreads =>
      ⟨aluShl s.ac v, execAlu_of_reads hwf hreads, aluShl_of_lt s.ac, aluShl_of_ge s.ac,
        fun _ hk => aluShl_bit s.ac v hk⟩,
    faultsOnBadOperand_of_operand fun _ => rfl⟩

/-- Settles O21: the new AC is `aluShr`, the floor of the quotient, whose bits are known for every amount. -/
theorem shrShiftsRightArithmetically : Obligations.ShrShiftsRightArithmetically :=
  ⟨encodedAs_of_instrOfOpcode fun _ => rfl,
    fun _ s v hwf hreads =>
      ⟨aluShr s.ac v, execAlu_of_reads hwf hreads, rfl, fun _ hk => aluShr_bit s.ac v hk⟩,
    faultsOnBadOperand_of_operand fun _ => rfl⟩

/-! ## The frame of the ALU instructions (O25) -/

/-- Each of the eight instructions is `execAlu` of its own function. -/
theorem exec_eq_execAlu {i : Instr} {o : Operand}
    (hi : i ∈ [Instr.add o, .sub o, .and o, .or o, .xor o, .not o, .shl o, .shr o]) (s : State) :
    ∃ f, exec i s = execAlu f o s := by
  simp only [List.mem_cons, List.not_mem_nil, or_false] at hi
  rcases hi with rfl | rfl | rfl | rfl | rfl | rfl | rfl | rfl <;> exact ⟨_, rfl⟩

/-- Settles O25: the eight differ in their function only, and neither next state of `execAlu` writes more than the frame names. -/
theorem aluInstructionsWriteOnlyAc : Obligations.AluInstructionsWriteOnlyAc := by
  intro i o s t hwf hi h
  obtain ⟨f, hexec⟩ := exec_eq_execAlu hi s
  rw [hexec] at h
  rcases execAlu_cases f o s with ⟨v, hv, hnext⟩ | ⟨a, ha, hnext⟩ <;> rw [hnext] at h <;> cases h
  · exact ⟨rfl, rfl, fun _ => rfl, rfl, rfl, rfl, rfl, rfl, rfl, .inl ⟨(operandValue_ok_iff hwf).1 hv, rfl, rfl, rfl⟩⟩
  · exact ⟨rfl, rfl, fun _ => rfl, rfl, rfl, rfl, rfl, rfl, rfl,
      .inr ⟨(operandValue_error_iff hwf).1 ha, rfl, rfl, rfl, rfl⟩⟩

/-! ## Negation (O41) -/

/-- The complement plus one is the two's complement (R186). -/
theorem aluAdd_aluNot_one (ac op : Word) : aluAdd (aluNot ac op) 1#16 = w16 (-(sint ac)) := by
  rw [aluAdd_eq, aluNot, w16_neg, w16_sint, BitVec.neg_eq_not_add]

/-- Settles O41: ADD `.1` reads 1 whatever NOT left, and adds it to the complement; the negation of 0x8000 is computed. -/
theorem notThenAddOneNegates : Obligations.NotThenAddOneNegates := by
  intro o s v hwf hreads
  have hone (t : State) : operandValue { sign := .plus, mode := .dotMode, mag := 1 } t = .ok 1#16 := rfl
  have hneg : aluAdd (aluNot s.ac v) 1#16 = w16 (-(sint s.ac)) := aluAdd_aluNot_one s.ac v
  refine ⟨_, _, execAlu_of_reads hwf hreads, execAlu_of_ok (hone _), hneg, fun hmin => hneg.trans ?_⟩
  rw [hmin]
  decide

end Sys2Proof.Machine

/-! # Proofs for 60_exceptions.md: the faults a run records, the host's commands at the pause point, and runs with and
without a host -/

namespace Sys2Proof.Machine

/-! ## STORE_OOB (O31) -/

theorem eq_store_of_opcode {i : Instr} (h : i.opcode = 3) : i = .store i.operand := by
  have hi := instrOfOpcode_opcode i
  rw [h] at hi
  exact (Option.some.inj hi).symm

/-- Settles O31: of what an instruction does to the status fields, only STORE's fault records that cause, and at its OP. -/
theorem storeOobOnlyByStore : Obligations.StoreOobOnlyByStore := by
  refine ⟨fun i s t hwf h hbefore hafter => ?_, fun o s v hwf hreads hge => ?_⟩
  · obtain ⟨u, hu, hcases⟩ := exec_cases i s
    rw [hu] at h
    cases h
    rcases hcases with ⟨v, hv, heff⟩ | ⟨a, -, rfl⟩
    · rcases heff.status with ⟨-, -, hcause, -⟩ | ⟨-, rfl⟩ | ⟨hstore, hoob, rfl⟩
      · exact absurd (hcause.symm.trans hafter) hbefore
      · exact absurd hafter hbefore
      · exact ⟨i.operand, eq_store_of_opcode hstore, (operandValue_ok_iff hwf).1 hv, hoob, rfl, rfl⟩
    · cases hafter
  · exact ⟨_, exec_store_of_ge (operandValue_of_reads hwf hreads) hge, rfl, rfl, rfl, rfl⟩

/-! ## What is recorded at the end of a run (O32) -/

/-- Consistent status fields record a cause exactly when FAULTED and a reason exactly when HALTED (R39). -/
theorem statusWf_recorded_iff {s : State} (h : s.statusWf = true) :
    (s.faultCause ≠ .none ↔ s.run = .faulted) ∧ (s.haltReason ≠ .none ↔ s.run = .halted) := by
  unfold State.statusWf at h
  split at h
  case h_8 => cases h
  all_goals next hrun hreason hcause => simp [hrun, hreason, hcause]

/-- Settles O32: the core that steps is RUNNING, and the status fields are consistent before the step and after it. -/
theorem faultIsRecordedOnce : Obligations.FaultIsRecordedOnce := by
  intro s t hs h
  have hrun := run_of_step h
  obtain ⟨-, -, hst', -⟩ := stepKeepsInvariant s t hs h
  obtain ⟨-, -, hst, -⟩ := hs
  obtain ⟨hreason, hcause, -⟩ := statusWf_running hst hrun
  exact ⟨hcause, hreason, hrun, statusWf_recorded_iff hst'⟩

/-! ## Where there is no next state (O37, O46) -/

theorem step_of_stopped {s : State} {r : Fault} (h : toPausePoint s = .stopped r) : step s = .fault r := by
  rw [step, cycleStep, h]

theorem toPausePoint_of_halted {s : State} (hrun : s.run = .halted) : toPausePoint s = .stopped .coreHalted := by
  simp only [toPausePoint, hrun]

theorem toPausePoint_of_faulted {s : State} (hrun : s.run = .faulted) : toPausePoint s = .stopped .coreFaulted := by
  simp only [toPausePoint, hrun]

/-- Settles O37: RUN stops the step before anything else is asked. -/
theorem noStepAfterTheEnd : Obligations.NoStepAfterTheEnd :=
  fun _ => ⟨fun hrun => step_of_stopped (toPausePoint_of_halted hrun),
    fun hrun => step_of_stopped (toPausePoint_of_faulted hrun)⟩

/-- Settles O46: the held core waits for a command, and there is none. -/
theorem unansweredHoldIsStuck : Obligations.UnansweredHoldIsStuck :=
  fun _ hrun hheld hnil => step_of_stopped (toPausePoint_of_unanswered hrun hheld hnil)

/-! ## The pre-fetch check (O43) -/

/-- Settles O43: a breakpoint at PC makes the host hold the cycle; every other host is left as it is. -/
theorem preFetchCheckReEnables : Obligations.PreFetchCheckReEnables := by
  intro s
  refine ⟨fun hwait hmem => preFetchCheck_of_holds (.inr ⟨hwait, hmem⟩), fun hwait hnot => ?_, fun hne => ?_⟩
  · have hhas : s.bp.has s.pc = false := by
      rw [Bool.eq_false_iff, ne_eq, Breakpoints.has_iff]
      rintro ⟨b, hb, hpc⟩
      exact hnot b hb hpc.symm
    exact preFetchCheck_of_passesPause (.inr ⟨hwait, hhas⟩)
  · rcases preFetchCheck_cases s with ⟨hwait, -⟩ | ⟨-, heq⟩
    · exact absurd hwait hne
    · exact heq

/-! ## Commands that do not resume the core (O44) -/

/-- The breakpoint set after a command (R225). -/
def HostCommand.breakpointsAfter (c : HostCommand) (l : Breakpoints) : Breakpoints :=
  match c with
  | .addBreakpoint a    => l.insert a
  | .deleteBreakpoint a => l.erase a
  | _                   => l

theorem HostCommand.mem_breakpointsAfter (c : HostCommand) (l : Breakpoints) (x : Fin 512) :
    x ∈ c.breakpointsAfter l ↔ (x ∈ l ∧ c ≠ .deleteBreakpoint x) ∨ c = .addBreakpoint x := by
  cases c with
  | addBreakpoint a => simp [breakpointsAfter, Breakpoints.mem_insert, or_comm, eq_comm]
  | deleteBreakpoint a => simp [breakpointsAfter, Breakpoints.mem_erase, and_comm, eq_comm]
  | _ => simp [breakpointsAfter]

theorem HostCommand.breakpointsAfter_wf (c : HostCommand) {l : Breakpoints} (h : l.wf = true) :
    (c.breakpointsAfter l).wf = true := by
  cases c with
  | addBreakpoint a => exact Breakpoints.insert_wf h
  | deleteBreakpoint a => exact Breakpoints.erase_wf h
  | _ => exact h

theorem HostCommand.breakpointsAfter_eq {c : HostCommand}
    (h : ∀ a, c ≠ .addBreakpoint a ∧ c ≠ .deleteBreakpoint a) (l : Breakpoints) : c.breakpointsAfter l = l := by
  cases c with
  | addBreakpoint a => exact absurd rfl (h a).1
  | deleteBreakpoint a => exact absurd rfl (h a).2
  | _ => rfl

/-- A command that neither resumes the core nor quits it changes the breakpoint set and nothing else (R225, R228). -/
theorem obey_of_not_resuming {c : HostCommand} (hc : c ∉ [HostCommand.next, .nextBreakpoint, .finish, .quit])
    (s : State) : obey c s = .ended (s.setBp (c.breakpointsAfter s.bp)) := by
  cases c with
  | next | nextBreakpoint | finish | quit => exact absurd (by simp) hc
  | _ => rfl

/-- Settles O44: the step ends in the held state with the command taken off and the command's breakpoint set. -/
theorem nonResumingCommandsKeepTheHold : Obligations.NonResumingCommandsKeepTheHold := by
  intro s c rest hrun hheld hcommands hc
  exact ⟨c.breakpointsAfter s.bp,
    step_of_ended ((toPausePoint_of_held hrun hheld hcommands).trans (obey_of_not_resuming hc _)),
    c.mem_breakpointsAfter s.bp, c.breakpointsAfter_wf, fun h => HostCommand.breakpointsAfter_eq h s.bp⟩

/-! ## Quit (O45) -/

theorem completesCycle_iff {s : State} :
    completesCycle s = true ↔ ∃ u t, toPausePoint s = .passes u ∧ execIr u = .next t ∧ t.run ≠ .faulted := by
  rw [completesCycle]
  cases toPausePoint s with
  | stopped r => simp
  | ended t => simp
  | passes u => cases hexec : execIr u <;> simp [hexec]

theorem toPausePoint_of_quit {s : State} {rest : List HostCommand} (hrun : s.run = .running) (hheld : s.held = true)
    (hc : s.commands = .quit :: rest) :
    toPausePoint s = .ended (((s.setCommands rest).halt .quit).setHeld false) :=
  toPausePoint_of_held hrun hheld hc

/-- Settles O45: the quit ends the step before the pause point is passed, so no cycle completes. -/
theorem quitHaltsAtThePausePoint : Obligations.QuitHaltsAtThePausePoint := by
  intro s rest hrun hheld hc
  have hp := toPausePoint_of_quit hrun hheld hc
  refine ⟨step_of_ended hp, Bool.eq_false_iff.2 fun hcomplete => ?_⟩
  obtain ⟨u, t, hpass, -⟩ := completesCycle_iff.1 hcomplete
  rw [hp] at hpass
  cases hpass

/-! ## Runs -/

theorem runSteps_succ_iff {k : Nat} {s t : State} :
    runSteps (k + 1) s = .next t ↔ ∃ u, step s = .next u ∧ runSteps k u = .next t := by
  rw [runSteps]
  cases step s <;> simp

/-- What every step keeps holds at the end of a run of any length from a state in which it holds. -/
theorem runSteps_induction {P : State → Prop} (hstep : ∀ s t, P s → step s = .next t → P t) {k : Nat} {s t : State}
    (hs : P s) (h : runSteps k s = .next t) : P t := by
  induction k generalizing s with
  | zero => cases h; exact hs
  | succ k ih =>
    obtain ⟨u, hu, hrest⟩ := runSteps_succ_iff.1 h
    exact ih (hstep s u hs hu) hrest

/-! ## A DISABLED host (O47) -/

/-- A free core under a DISABLED host with the breakpoints `l` and the commands `cs`. -/
def FreeUnderDisabled (l : Breakpoints) (cs : List HostCommand) (s : State) : Prop :=
  s.dbg = .disabled ∧ s.held = false ∧ s.bp = l ∧ s.commands = cs

/-- A step under a DISABLED host starts no hold and leaves the host's part of the state as it is (R222). -/
theorem step_keeps_freeUnderDisabled {l : Breakpoints} {cs : List HostCommand} {s t : State}
    (hs : FreeUnderDisabled l cs s) (h : step s = .next t) : FreeUnderDisabled l cs t := by
  obtain ⟨hdbg, hfree, rfl, rfl⟩ := hs
  rcases step_cases s with ⟨r, -, hstep⟩ | ⟨u, hp, hstep⟩ | ⟨u, hp, hstep⟩ <;> rw [hstep] at h
  · cases h
  · cases h
    obtain ⟨-, hcases⟩ := toPausePoint_ended hp
    rw [preFetchCheck_of_passesPause (.inl hdbg)] at hcases
    rcases hcases with ⟨-, -, rfl⟩ | ⟨-, -, -, rfl⟩ | ⟨-, -, -, hen, -⟩ | ⟨hheld, -⟩
    · exact ⟨hdbg, hfree, rfl, rfl⟩
    · exact ⟨hdbg, hfree, rfl, rfl⟩
    · cases hdbg.symm.trans hen
    · cases hfree.symm.trans hheld
  · obtain ⟨i, -, -, hexec⟩ := execIr_next h
    obtain ⟨-, hheld, hdbg', hbp, hcommands⟩ := exec_host hexec
    obtain ⟨-, -, -, -, -, hfree', hbp', -, -, -, hcases⟩ := toPausePoint_passes hp
    rcases hcases with ⟨-, -, -, -, hdbg'', -, hcommands', -⟩ | ⟨hheld', -⟩
    · exact ⟨hdbg'.trans (hdbg''.trans hdbg), hheld.trans hfree', hbp.trans hbp', hcommands.trans hcommands'⟩
    · cases hfree.symm.trans hheld'

/-- Settles O47: every step keeps the host's part, so a run of any length does. -/
theorem disabledHostNeverHolds : Obligations.DisabledHostNeverHolds :=
  fun _ s _ hdbg hfree h =>
    runSteps_induction (P := FreeUnderDisabled s.bp s.commands) (fun _ _ => step_keeps_freeUnderDisabled)
      ⟨hdbg, hfree, rfl, rfl⟩ h

/-! ## The run without the host (O48) -/

theorem execIr_hostless {u t : State} (h : execIr u = .next t) : execIr u.hostless = .next t.hostless := by
  obtain ⟨i, hi, -, hexec⟩ := execIr_next h
  rw [execIr, State.hostless_ir, hi]
  exact exec_hostless hexec

theorem preFetchCheck_hostless (s : State) : (preFetchCheck s).hostless = s.hostless := by
  rw [preFetchCheck_eq]
  rfl

/-- `c` is the state in which the hostless machine stands while `s` is reached under a host: between cycles it is `s`
itself, and during a hold it is the state before the cycle, whose step will execute the instruction in IR (R226, R233). -/
def ShadowedBy (s c : State) : Prop :=
  (s.held = false ∧ c = s.hostless) ∨ (s.held = true ∧ step c = execIr s.hostless)

theorem shadowedBy_hostless {s : State} (hfree : s.held = false) : ShadowedBy s s.hostless := .inl ⟨hfree, rfl⟩

/-- The hostless machine passes its pause point: its step executes the word it fetches. -/
theorem step_hostless_of_fetch {s : State} {i : Instr} (hrun : s.run = .running) (hpc : uint s.pc < 512)
    (hi : decode (s.wordAt (uint s.pc)) = .ok i) :
    step s.hostless = execIr (s.latch (s.wordAt (uint s.pc))).hostless := by
  rw [step_of_passesPause (s := s.hostless) hrun rfl (.inl rfl) hpc rfl hi]
  simp only [execIr, State.hostless_ir, State.latch_ir, hi]
  rfl

/-- Past the pause point the hostless machine executes the same state, whether the core was held there or not. -/
theorem step_shadow_of_passes {s c u : State} (hshadow : ShadowedBy s c) (h : toPausePoint s = .passes u) :
    step c = execIr u.hostless := by
  obtain ⟨hrun, hrun', hreason, hcause, haddr, -, -, hac, hmem, hop, hcases⟩ := toPausePoint_passes h
  rcases hcases with ⟨hfree, hlt, hpc, hir, -, -, -, i, hi⟩ | ⟨hheld, hpc, hir⟩
  · obtain ⟨-, rfl⟩ | ⟨hheld, -⟩ := hshadow
    · rw [step_hostless_of_fetch hrun hlt (hir ▸ hi)]
      simp only [State.hostless, State.latch, hrun', hrun, hreason, hcause, haddr, hac, hmem, hop, hpc, hir]
    · cases hfree.symm.trans hheld
  · obtain ⟨hfree, -⟩ | ⟨-, hstep⟩ := hshadow
    · cases hfree.symm.trans hheld
    · rw [hstep]
      simp only [State.hostless, hrun', hrun, hreason, hcause, haddr, hac, hmem, hop, hpc, hir]

/-- Without a host a fetch out of memory faults alike. -/
theorem step_hostless_of_oob {s : State} (hrun : s.run = .running) (hpc : 512 ≤ uint s.pc) :
    step s.hostless = .next (s.raise .fetchOob s.pc).hostless :=
  fetchOutOfBoundsFaults s.hostless hrun rfl hpc

/-- Without a host the fetch of an illegal word faults alike. -/
theorem step_hostless_of_illegal {s : State} (hrun : s.run = .running) (hpc : uint s.pc < 512)
    (hw : decode (s.wordAt (uint s.pc)) = .error .illegalOpcode) :
    step s.hostless = .next (s.raise .illegalOpcode s.pc).hostless := by
  apply step_of_ended
  rw [toPausePoint_of_free (s := s.hostless) hrun rfl, startCycle_of_illegal (s := s.hostless) hpc hw,
    preFetchCheck_of_passesPause (.inl rfl)]
  rfl

/-- The pre-fetch check's DBG is lost with the host, so what a fetch makes of its state is what it makes of `s`. -/
theorem raise_preFetchCheck_hostless (s : State) (cause : FaultCause) (a : Word) :
    ((preFetchCheck s).raise cause a).hostless = (s.raise cause a).hostless :=
  congrArg (State.raise cause a) (preFetchCheck_hostless s)

theorem hold_preFetchCheck_hostless (s : State) (w : Word) :
    (((preFetchCheck s).latch w).setHeld true).hostless = (s.latch w).hostless :=
  congrArg (State.latch w) (preFetchCheck_hostless s)

theorem endsCycle_of_passes {s u : State} (h : toPausePoint s = .passes u) : endsCycle s = true := by
  rw [endsCycle, h]

theorem endsCycle_of_ended {s t : State} (h : toPausePoint s = .ended t) : endsCycle s = decide (t.run = .faulted) := by
  rw [endsCycle, h]

/-- A free core's step that ends before resolution faults as it does without a host, or enters the hold (R226, R234). -/
theorem ended_shadow_of_free {s t : State} (hfree : s.held = false) (hp : toPausePoint s = .ended t) :
    (t.run = .faulted ∧ t.held = false ∧ step s.hostless = .next t.hostless) ∨
    (t.run = .running ∧ ShadowedBy t s.hostless) := by
  have hfree' : (preFetchCheck s).held = false := (preFetchCheck_held s).trans hfree
  obtain ⟨hrun, hcases⟩ := toPausePoint_ended hp
  rcases hcases with ⟨-, hpc, rfl⟩ | ⟨-, hpc, hw, rfl⟩ | ⟨-, hpc, ⟨i, hi⟩, -, rfl⟩ | ⟨hheld, -⟩
  · rw [raise_preFetchCheck_hostless]
    exact .inl ⟨rfl, hfree', step_hostless_of_oob hrun hpc⟩
  · rw [raise_preFetchCheck_hostless]
    exact .inl ⟨rfl, hfree', step_hostless_of_illegal hrun hpc hw⟩
  · refine .inr ⟨(preFetchCheck_run s).trans hrun, .inr ⟨rfl, ?_⟩⟩
    rw [hold_preFetchCheck_hostless]
    exact step_hostless_of_fetch hrun hpc hi
  · cases hfree.symm.trans hheld

/-- A held core's step that does not resume keeps the hold and the core's state, or it is the quit (R227, R228). -/
theorem ended_of_held {s t : State} (hheld : s.held = true) (hp : toPausePoint s = .ended t) :
    (t.run = .running ∧ t.held = true ∧ t.hostless = s.hostless) ∨ (t.run = .halted ∧ t.haltReason = .quit) := by
  obtain ⟨hrun, hcases⟩ := toPausePoint_ended hp
  rcases hcases with ⟨hfree, -⟩ | ⟨hfree, -⟩ | ⟨hfree, -⟩ | ⟨-, c, rest, -, hcmd⟩
  · cases hheld.symm.trans hfree
  · cases hheld.symm.trans hfree
  · cases hheld.symm.trans hfree
  · rcases hcmd with ⟨b, -, rfl⟩ | rfl
    · exact .inl ⟨hrun, hheld, rfl⟩
    · exact .inr ⟨rfl, rfl⟩

/-- A step that ends a cycle is a step of the hostless machine, and any other step but a quit is none (R226, R233). -/
theorem step_shadow {s c t : State} (hshadow : ShadowedBy s c) (h : step s = .next t) :
    (endsCycle s = true ∧ step c = .next t.hostless ∧ t.held = false) ∨
    (endsCycle s = false ∧ ShadowedBy t c) ∨
    (t.run = .halted ∧ t.haltReason = .quit) := by
  rcases step_cases s with ⟨r, -, hstep⟩ | ⟨u, hp, hstep⟩ | ⟨u, hp, hstep⟩ <;> rw [hstep] at h
  · cases h
  · cases h
    rw [endsCycle_of_ended hp]
    rcases hshadow with ⟨hfree, rfl⟩ | ⟨hheld, hc⟩
    · rcases ended_shadow_of_free hfree hp with ⟨hrun, hfree', hstep'⟩ | ⟨hrun, hshadow'⟩
      · exact .inl ⟨decide_eq_true hrun, hstep', hfree'⟩
      · exact .inr (.inl ⟨by rw [hrun]; rfl, hshadow'⟩)
    · rcases ended_of_held hheld hp with ⟨hrun, hheld', hcore⟩ | hquit
      · exact .inr (.inl ⟨by rw [hrun]; rfl, .inr ⟨hheld', hcore ▸ hc⟩⟩)
      · exact .inr (.inr hquit)
  · obtain ⟨-, -, -, -, -, hfree, -⟩ := toPausePoint_passes hp
    obtain ⟨i, -, -, hexec⟩ := execIr_next h
    obtain ⟨-, hheld, -⟩ := exec_host hexec
    exact .inl ⟨endsCycle_of_passes hp, (step_shadow_of_passes hshadow hp).trans (execIr_hostless h),
      hheld.trans hfree⟩

theorem runSteps_of_halted {k : Nat} {s t : State} (hrun : s.run = .halted) (h : runSteps k s = .next t) : t = s := by
  cases k with
  | zero => cases h; rfl
  | succ k =>
    obtain ⟨u, hu, -⟩ := runSteps_succ_iff.1 h
    rw [step_of_stopped (toPausePoint_of_halted hrun)] at hu
    cases hu

theorem countSteps_succ_of_step {p : State → Bool} {k : Nat} {s u : State} (h : step s = .next u) :
    countSteps p (k + 1) s = (if p s then 1 else 0) + countSteps p k u := by
  rw [countSteps, h]

/-- The hostless machine makes one step for each cycle the run has ended. -/
theorem runSteps_shadow {k : Nat} {s c t : State} (hshadow : ShadowedBy s c) (h : runSteps k s = .next t)
    (hfree : t.held = false) (hquit : t.haltReason ≠ .quit) :
    runSteps (countSteps endsCycle k s) c = .next t.hostless := by
  induction k generalizing s c with
  | zero =>
    cases h
    obtain ⟨-, rfl⟩ | ⟨hheld, -⟩ := hshadow
    · rfl
    · cases hfree.symm.trans hheld
  | succ k ih =>
    obtain ⟨u, hu, hrest⟩ := runSteps_succ_iff.1 h
    rw [countSteps_succ_of_step hu]
    rcases step_shadow hshadow hu with ⟨hends, hstep, hfree'⟩ | ⟨hends, hshadow'⟩ | ⟨hrun, hreason⟩
    · rw [if_pos hends, Nat.add_comm]
      exact runSteps_succ_iff.2 ⟨u.hostless, hstep, ih (shadowedBy_hostless hfree') hrest⟩
    · rw [hends, if_neg Bool.false_ne_true, Nat.zero_add]
      exact ih hshadow' hrest
    · rw [runSteps_of_halted hrun hrest] at hquit
      exact absurd hreason hquit

/-- Settles O48: a free state is shadowed by itself without the host, and the shadow is where the run ends. -/
theorem hostDoesNotChangeTheComputation : Obligations.HostDoesNotChangeTheComputation :=
  fun _ _ _ hfree h hfree' hquit => runSteps_shadow (shadowedBy_hostless hfree) h hfree' hquit

/-! ## Echoes (O49) -/

/-- What a command shows is no echo of a cycle. -/
theorem commandShows_no_echo (c : HostCommand) (s : State) (x y : Word) :
    Observation.cycleEcho x y ∉ commandShows c s ∧ Observation.storeEcho x y ∉ commandShows c s := by
  cases c <;> simp [commandShows]

theorem cycleEchoes_of_disabled {u t : State} (hdbg : t.dbg = .disabled) : cycleEchoes u t = [] := if_pos (.inl hdbg)

section CompletedCycle
variable {u t : State} (hdbg : t.dbg ≠ .disabled) (hrun : t.run ≠ .faulted)
include hdbg hrun

theorem cycleEcho_mem_cycleEchoes : Observation.cycleEcho t.pc t.ac ∈ cycleEchoes u t := by
  rw [cycleEchoes, if_neg (not_or.2 ⟨hdbg, hrun⟩)]
  split <;> simp

theorem storeEcho_mem_cycleEchoes {o : Operand} (hir : decode u.ir = .ok (.store o)) :
    Observation.storeEcho t.op t.ac ∈ cycleEchoes u t := by
  rw [cycleEchoes, if_neg (not_or.2 ⟨hdbg, hrun⟩), hir]
  simp

end CompletedCycle

/-- A step that executes shows what the command that resumed it shows, and then the echoes of its cycle (R229). -/
theorem observe_of_passes {s u t : State} (hp : toPausePoint s = .passes u) (h : execIr u = .next t) :
    ∃ shown, observe s = shown ++ cycleEchoes u t ∧
      ∀ x y, Observation.cycleEcho x y ∉ shown ∧ Observation.storeEcho x y ∉ shown := by
  simp only [observe, hp, h]
  refine ⟨_, rfl, fun x y => ?_⟩
  split
  · exact commandShows_no_echo _ s x y
  · simp

/-- Settles O49: a complete cycle has executed, and its echoes are all the step shows beside a command's own output. -/
theorem completeCyclesAreEchoed : Obligations.CompleteCyclesAreEchoed := by
  intro s t hstep hcomplete
  obtain ⟨u, v, hp, hexec, hrun⟩ := completesCycle_iff.1 hcomplete
  have hnext : execIr u = .next t := by rw [← hstep, step, cycleStep, hp]
  cases hnext.symm.trans hexec
  obtain ⟨shown, hobserve, hshown⟩ := observe_of_passes hp hexec
  rw [hobserve]
  refine ⟨fun hdbg => ?_, fun hdbg u' o hp' hir => ?_, fun hdbg => ?_⟩
  · exact List.mem_append_right _ (cycleEcho_mem_cycleEchoes hdbg hrun)
  · cases hp.symm.trans hp'
    exact List.mem_append_right _ (storeEcho_mem_cycleEchoes hdbg hrun hir)
  · rw [cycleEchoes_of_disabled hdbg, List.append_nil]
    exact hshown

end Sys2Proof.Machine

/-! # Proofs for 70_reset_and_hazards.md: the cycle count of a run without a hold -/

namespace Sys2Proof.Machine

/-! ## The cycle count (O50) -/

/-- With no hold to enter and none to answer, only a fault of fetch ends a step before resolution (R222, R234). -/
theorem ended_faulted_of_disabled {s t : State} (hdbg : s.dbg = .disabled) (hfree : s.held = false)
    (hp : toPausePoint s = .ended t) : t.run = .faulted := by
  obtain ⟨-, hcases⟩ := toPausePoint_ended hp
  rcases hcases with ⟨-, -, rfl⟩ | ⟨-, -, -, rfl⟩ | ⟨-, -, -, hen, -⟩ | ⟨hheld, -⟩
  · rfl
  · rfl
  · rw [preFetchCheck_of_passesPause (.inl hdbg)] at hen
    cases hdbg.symm.trans hen
  · cases hfree.symm.trans hheld

/-- Without a hold a step is a whole cycle: complete, or faulted (R133). -/
theorem completesCycle_iff_not_faulted {s t : State} (hdbg : s.dbg = .disabled) (hfree : s.held = false)
    (h : step s = .next t) : completesCycle s = true ↔ t.run ≠ .faulted := by
  rw [completesCycle_iff]
  rcases step_cases s with ⟨r, -, hstep⟩ | ⟨u, hp, hstep⟩ | ⟨u, hp, hstep⟩ <;> rw [hstep] at h
  · cases h
  · cases h
    simp [hp, ended_faulted_of_disabled hdbg hfree hp]
  · simp [hp, h]

theorem runSteps_of_faulted {k : Nat} {s t : State} (hrun : s.run = .faulted) (h : runSteps k s = .next t) :
    k = 0 ∧ t = s := by
  cases k with
  | zero => cases h; exact ⟨rfl, rfl⟩
  | succ k =>
    obtain ⟨u, hu, -⟩ := runSteps_succ_iff.1 h
    rw [step_of_stopped (toPausePoint_of_faulted hrun)] at hu
    cases hu

/-- A fault can only be the last step of a run, so the complete cycles and that fault are all its steps (R249, D18). -/
theorem cycleCount_add_faulted {k : Nat} {s t : State} (hrun : s.run ≠ .faulted) (hdbg : s.dbg = .disabled)
    (hfree : s.held = false) (h : runSteps k s = .next t) :
    cycleCount k s + (if t.run = .faulted then 1 else 0) = k := by
  induction k generalizing s with
  | zero =>
    cases h
    rw [if_neg hrun]
    rfl
  | succ k ih =>
    obtain ⟨u, hu, hrest⟩ := runSteps_succ_iff.1 h
    have hcomplete := completesCycle_iff_not_faulted hdbg hfree hu
    rw [cycleCount, countSteps_succ_of_step hu, ← cycleCount]
    by_cases hfault : u.run = .faulted
    · obtain ⟨rfl, rfl⟩ := runSteps_of_faulted hfault hrest
      rw [if_neg (mt hcomplete.1 (not_not_intro hfault)), if_pos hfault]
      rfl
    · obtain ⟨hdbg', hfree', -, -⟩ := step_keeps_freeUnderDisabled ⟨hdbg, hfree, rfl, rfl⟩ hu
      have hcount := ih hfault hdbg' hfree' hrest
      rw [if_pos (hcomplete.2 hfault)]
      omega

/-- Settles O50: the complete cycles and the faulted one add up to the steps of the run. -/
theorem cycleCountCountsCompleteCycles : Obligations.CycleCountCountsCompleteCycles := by
  intro k s t hrun hdbg hfree h
  have hcount := cycleCount_add_faulted (by rw [hrun]; decide) hdbg hfree h
  constructor
  · intro hok
    rwa [if_neg hok] at hcount
  · intro hfault
    rwa [if_pos hfault] at hcount

end Sys2Proof.Machine

/-! # Proofs for 95_test_vectors.md: the sample words -/

namespace Sys2Proof

/-- Decoder and encoder are inverse to each other (R95): a word reads as the well-formed instruction that encodes to it, and as no
other. -/
theorem decode_eq_ok_iff {w : Word} {i : Instr} : decode w = .ok i ↔ i.wellFormed = true ∧ encode i = w := by
  constructor
  · exact encodeOfDecodeIsIdentity w i
  · rintro ⟨hwf, rfl⟩
    exact decodeOfEncodeIsIdentity i hwf

/-- Settles O4: each of the eight texts encodes to its word (sections 1 and 2), and bits 14 to 11 of 0x7800 are code 15. -/
theorem sampleWordsDecode : Obligations.SampleWordsDecode := by
  simp only [Obligations.SampleWordsDecode, decode_eq_ok_iff, decode_eq_illegalOpcode_iff]
  decide

end Sys2Proof
